-- ==== Sys2Proof/Word.lean ====
section
/-! DEFINITION. The word types of the core (spec 00_scope.md R5, R7): every value is unsigned. -/

namespace Sys2Proof

/-- A memory cell, a general register, a timer: 8 bits (R5, R12, R29). -/
abbrev Byte := BitVec 8

/-- I, PC, a stack slot, an instruction word: 16 bits (R5, R16, R17, R19, R45). -/
abbrev Word := BitVec 16

/-- The `n` field of Dxyn and the family selector: 4 bits (R45). -/
abbrev Nibble := BitVec 4

/-- The `nnn` field: a 12-bit address (R45). -/
abbrev Addr := BitVec 12

/-- A register index, the value of an `x` or `y` field: V0 to VF (R12, R45). -/
abbrev Reg := Fin 16

/-- A key index 0x0 to 0xF (R22). -/
abbrev Key := Fin 16

end Sys2Proof
end

