-- ==== Sys2Proof/Config.lean ====
section
/-! DEFINITION. The configuration: the parameters of spec 00_scope.md R6, each a closed type of its
values, and the free value P_RNG. The DEFAULT configuration is in Machine/Defaults.lean. -/

namespace Sys2Proof

/-- P_SUB_FLAG (R6, D5): when 8xy5 sets VF. -/
inductive SubFlag where
  | gt  -- VF := 1 iff Vx > Vy
  | ge  -- VF := 1 iff Vx >= Vy
deriving DecidableEq, Repr

/-- P_VF_DEST (R6, R76, D6): which write to VF is last when x = F. -/
inductive VfDest where
  | result  -- the result is written last
  | flag    -- the flag is written last
deriving DecidableEq, Repr

/-- P_OR_XOR (R6, R49, D7): whether 8xy1 and 8xy3 are instructions. -/
inductive OrXor where
  | present
  | absent  -- they are unknown opcodes
deriving DecidableEq, Repr

/-- P_SELF_JUMP (R6, R67, D10): whether a jump to itself is signalled. -/
inductive SelfJump where
  | off
  | on
deriving DecidableEq, Repr

/-- P_DRAW_EDGE (R6, R97, D11): what becomes of a sprite pixel off the screen. -/
inductive DrawEdge where
  | wrap
  | clip
deriving DecidableEq, Repr

/-- P_ADD_I_WIDTH (R6, R89, D15): the modulus of Fx1E. -/
inductive AddIWidth where
  | w16  -- modulo 2^16
  | w12  -- modulo 2^12
deriving DecidableEq, Repr

/-- P_FONT_DIGIT (R6, R90, D16): Fx29 with Vx > 0xF. -/
inductive FontDigit where
  | fault    -- raises InvalidFontDigit
  | compute  -- I := Vx * 5
deriving DecidableEq, Repr

/-- P_KEY_WAIT (R6, R104, D17): which keys complete the wait of Fx0A. -/
inductive KeyWait where
  | edge   -- a key pressed now and not in the baseline
  | level  -- any key pressed now
deriving DecidableEq, Repr

/-- P_RET_UNDERFLOW (R6, R66, D4): 00EE with an empty stack. -/
inductive RetUnderflow where
  | fault    -- raises StackUnderflow
  | popZero  -- PC := 0x0002, SP stays 0
deriving DecidableEq, Repr

/-- P_FONT (R6, R100): the 80 bytes reset installs at 0x000 to 0x04F. -/
abbrev Font := Vector Byte 80

/-- The configurable parameters of R6 ("the model takes each as an argument"). P_STEPS_PER_FRAME is
an argument of the frame loop (Machine/HostOps.lean), since no rule of the core reads it; P_RNG is
`Config.rng` below. DESIGN CHOICE: a value of this type is carried in the machine's state, so that
a claim about every state is a claim about every value of every parameter; safe (log entry 1). -/
structure Params where
  subFlag      : SubFlag
  vfDest       : VfDest
  orXor        : OrXor
  selfJump     : SelfJump
  drawEdge     : DrawEdge
  addIWidth    : AddIWidth
  fontDigit    : FontDigit
  keyWait      : KeyWait
  retUnderflow : RetUnderflow
  font         : Font
deriving DecidableEq, Repr

/-- P_RNG (R6, R86, D24): the random-byte oracle, a FREE VALUE. The k-th draw is `Config.rng k`;
nothing constrains it, so a claim holds for every sequence of bytes. DESIGN CHOICE: the draw is
numbered by the counter `State.draws`; safe (log entry 3). -/
opaque Config.rng : Nat → Byte

end Sys2Proof
end

