-- ==== Sys2Proof/Machine/Defaults.lean ====
section
/-! DEFINITION. The configuration DEFAULT of spec 00_scope.md R6 and the font table of
44_display.md R100. -/

namespace Sys2Proof.Machine

/-- The DEFAULT value of P_FONT, glyphs 0 to F in order (R100). PRESUMED: the spec itself takes the
80 bytes from general knowledge (D14, G1); unsafe for a claim about glyph bytes (log entry 7). -/
def defaultFont : Font :=
  #v[0xF0, 0x90, 0x90, 0x90, 0xF0,
     0x20, 0x60, 0x20, 0x20, 0x70,
     0xF0, 0x10, 0xF0, 0x80, 0xF0,
     0xF0, 0x10, 0xF0, 0x10, 0xF0,
     0x90, 0x90, 0xF0, 0x10, 0x10,
     0xF0, 0x80, 0xF0, 0x10, 0xF0,
     0xF0, 0x80, 0xF0, 0x90, 0xF0,
     0xF0, 0x10, 0x20, 0x40, 0x40,
     0xF0, 0x90, 0xF0, 0x90, 0xF0,
     0xF0, 0x90, 0xF0, 0x10, 0xF0,
     0xF0, 0x90, 0xF0, 0x90, 0x90,
     0xE0, 0x90, 0xE0, 0x90, 0xE0,
     0xF0, 0x80, 0x80, 0x80, 0xF0,
     0xE0, 0x90, 0x90, 0x90, 0xE0,
     0xF0, 0x80, 0xF0, 0x80, 0xF0,
     0xF0, 0x80, 0xF0, 0x80, 0x80]

/-- DEFAULT (R6): the last column of its table. -/
def defaultParams : Params where
  subFlag      := .gt
  vfDest       := .result
  orXor        := .present
  selfJump     := .off
  drawEdge     := .wrap
  addIWidth    := .w16
  fontDigit    := .fault
  keyWait      := .edge
  retUnderflow := .fault
  font         := defaultFont

end Sys2Proof.Machine
end

