-- ==== Sys2Proof/Syntax.lean ====
section
/-! DEFINITION. The 32 instructions of spec 30_encoding.md R47, one constructor per row of
opcode_table.json, in the table's order. Operands are typed by the width of their field (R45,
R46), so no operand value lies outside its field. -/

namespace Sys2Proof

inductive Instr where
  /-- 00E0 CLS (R96). -/
  | cls
  /-- 00EE RET (R66). -/
  | ret
  /-- 1nnn JP nnn (R67). -/
  | jp (nnn : Addr)
  /-- 2nnn CALL nnn (R68). -/
  | call (nnn : Addr)
  /-- 3xkk SE Vx, kk (R69). -/
  | seLit (x : Reg) (kk : Byte)
  /-- 4xkk SNE Vx, kk (R70). -/
  | sneLit (x : Reg) (kk : Byte)
  /-- 5xy0 SE Vx, Vy (R71). -/
  | seReg (x y : Reg)
  /-- 6xkk LD Vx, kk (R77). -/
  | ldLit (x : Reg) (kk : Byte)
  /-- 7xkk ADD Vx, kk (R78). -/
  | addLit (x : Reg) (kk : Byte)
  /-- 8xy0 LD Vx, Vy (R79). -/
  | ldReg (x y : Reg)
  /-- 8xy1 OR Vx, Vy (R80). -/
  | orReg (x y : Reg)
  /-- 8xy2 AND Vx, Vy (R81). -/
  | andReg (x y : Reg)
  /-- 8xy3 XOR Vx, Vy (R82). -/
  | xorReg (x y : Reg)
  /-- 8xy4 ADD Vx, Vy (R83). -/
  | addReg (x y : Reg)
  /-- 8xy5 SUB Vx, Vy (R84). -/
  | subReg (x y : Reg)
  /-- 8xy6 SHR Vx (R85). The `y` field is decoded and ignored (R46). -/
  | shr (x y : Reg)
  /-- 9xy0 SNE Vx, Vy (R72). -/
  | sneReg (x y : Reg)
  /-- Annn LD I, nnn (R88). -/
  | ldI (nnn : Addr)
  /-- Bnnn JP V0, nnn (R73). -/
  | jpV0 (nnn : Addr)
  /-- Cxkk RND Vx, kk (R86). -/
  | rnd (x : Reg) (kk : Byte)
  /-- Dxyn DRW Vx, Vy, n (R99). -/
  | drw (x y : Reg) (n : Nibble)
  /-- Ex9E SKP Vx (R101). -/
  | skp (x : Reg)
  /-- ExA1 SKNP Vx (R102). -/
  | sknp (x : Reg)
  /-- Fx07 LD Vx, DT (R103). -/
  | ldVxDt (x : Reg)
  /-- Fx0A LD Vx, K (R104). -/
  | ldVxKey (x : Reg)
  /-- Fx15 LD DT, Vx (R105). -/
  | ldDtVx (x : Reg)
  /-- Fx18 LD ST, Vx (R106). -/
  | ldStVx (x : Reg)
  /-- Fx1E ADD I, Vx (R89). -/
  | addI (x : Reg)
  /-- Fx29 LD F, Vx (R90). -/
  | ldF (x : Reg)
  /-- Fx33 LD B, Vx (R91). -/
  | ldB (x : Reg)
  /-- Fx55 LD [I], Vx (R92). -/
  | storeRegs (x : Reg)
  /-- Fx65 LD Vx, [I] (R93). -/
  | loadRegs (x : Reg)
deriving DecidableEq, Repr

end Sys2Proof
end

