-- ==== Sys2Proof/WellFormed.lean ====
section
/-! DEFINITION. Which instructions exist under a configuration (spec 30_encoding.md R47, R49). Field
ranges are in the types of Syntax.lean; the one check left is P_OR_XOR: 8xy1 and 8xy3 are
instructions only when it is `present` (R80, R82, D7). -/

namespace Sys2Proof

/-- The instruction is one of the configuration's: `decode o` answers it for some word. -/
def Instr.wf (o : OrXor) : Instr → Bool
  | .orReg _ _ | .xorReg _ _ => decide (o = .present)
  | .cls | .ret | .jp _ | .call _ | .seLit _ _ | .sneLit _ _ | .seReg _ _ | .ldLit _ _
  | .addLit _ _ | .ldReg _ _ | .andReg _ _ | .addReg _ _ | .subReg _ _ | .shr _ _
  | .sneReg _ _ | .ldI _ | .jpV0 _ | .rnd _ _ | .drw _ _ _ | .skp _ | .sknp _ | .ldVxDt _
  | .ldVxKey _ | .ldDtVx _ | .ldStVx _ | .addI _ | .ldF _ | .ldB _ | .storeRegs _
  | .loadRegs _ => true

end Sys2Proof
end

