-- ==== Sys2Proof/Decode.lean ====
section
/-! DEFINITION. Decoding and encoding: the one 16-bit format of spec 30_encoding.md R45, the opcode
map R47 with strict matching R48, and the unknown words R49. Decode is total and reads the word
and P_OR_XOR only (R51). -/

namespace Sys2Proof

/-! ## Fields (R45) -/

/-- op[15:12], the family selector. -/
def fieldOp (w : Word) : Nibble := w.extractLsb' 12 4

/-- op[11:8], a register index. -/
def fieldX (w : Word) : Reg := (w.extractLsb' 8 4).toFin

/-- op[7:4], a register index. -/
def fieldY (w : Word) : Reg := (w.extractLsb' 4 4).toFin

/-- op[3:0], a row count or secondary selector (its place is derived in R45). -/
def fieldN (w : Word) : Nibble := w.extractLsb' 0 4

/-- op[7:0], an immediate or secondary selector. -/
def fieldKk (w : Word) : Byte := w.extractLsb' 0 8

/-- op[11:0], an address. -/
def fieldNnn (w : Word) : Addr := w.extractLsb' 0 12

/-! ## The opcode map (R47, R48, R49) -/

/-- Family 0x0: only the two whole words 00E0 and 00EE. -/
def decode0 (w : Word) : Option Instr :=
  if w = 0x00E0 then some .cls
  else if w = 0x00EE then some .ret
  else none

/-- Family 0x8, by op[3:0]; 8xy1 and 8xy3 under P_OR_XOR = present only. -/
def decode8 (o : OrXor) (w : Word) : Option Instr :=
  let x := fieldX w
  let y := fieldY w
  match (fieldN w).toNat with
  | 0x0 => some (.ldReg x y)
  | 0x1 => if o = .present then some (.orReg x y) else none
  | 0x2 => some (.andReg x y)
  | 0x3 => if o = .present then some (.xorReg x y) else none
  | 0x4 => some (.addReg x y)
  | 0x5 => some (.subReg x y)
  | 0x6 => some (.shr x y)
  | _   => none

/-- Family 0xE, by op[7:0]. -/
def decodeE (w : Word) : Option Instr :=
  match (fieldKk w).toNat with
  | 0x9E => some (.skp (fieldX w))
  | 0xA1 => some (.sknp (fieldX w))
  | _    => none

/-- Family 0xF, by op[7:0]. -/
def decodeF (w : Word) : Option Instr :=
  let x := fieldX w
  match (fieldKk w).toNat with
  | 0x07 => some (.ldVxDt x)
  | 0x0A => some (.ldVxKey x)
  | 0x15 => some (.ldDtVx x)
  | 0x18 => some (.ldStVx x)
  | 0x1E => some (.addI x)
  | 0x29 => some (.ldF x)
  | 0x33 => some (.ldB x)
  | 0x55 => some (.storeRegs x)
  | 0x65 => some (.loadRegs x)
  | _    => none

/-- `decode : u16 -> Instr | Unknown` (R51); `none` is an unknown opcode (R49). DEDUCED: every fixed
digit must match (the spec's decisions D8, D9); safe (log entry 11). -/
def decode (o : OrXor) (w : Word) : Option Instr :=
  match (fieldOp w).toNat with
  | 0x0 => decode0 w
  | 0x1 => some (.jp (fieldNnn w))
  | 0x2 => some (.call (fieldNnn w))
  | 0x3 => some (.seLit (fieldX w) (fieldKk w))
  | 0x4 => some (.sneLit (fieldX w) (fieldKk w))
  | 0x5 => if fieldN w = 0 then some (.seReg (fieldX w) (fieldY w)) else none
  | 0x6 => some (.ldLit (fieldX w) (fieldKk w))
  | 0x7 => some (.addLit (fieldX w) (fieldKk w))
  | 0x8 => decode8 o w
  | 0x9 => if fieldN w = 0 then some (.sneReg (fieldX w) (fieldY w)) else none
  | 0xA => some (.ldI (fieldNnn w))
  | 0xB => some (.jpV0 (fieldNnn w))
  | 0xC => some (.rnd (fieldX w) (fieldKk w))
  | 0xD => some (.drw (fieldX w) (fieldY w) (fieldN w))
  | 0xE => decodeE w
  | 0xF => decodeF w
  | _   => none

/-! ## Bytes (R33) -/

/-- The instruction word from its two bytes, the first one high (R33, R34). -/
def wordOfBytes (hi lo : Byte) : Word := hi ++ lo

/-- The byte at the lower address of an instruction word (R33). -/
def highByte (w : Word) : Byte := w.extractLsb' 8 8

/-- The byte at the higher address of an instruction word (R33). -/
def lowByte (w : Word) : Byte := w.extractLsb' 0 8

/-- Decoding a stream of bytes: one instruction and the rest; every instruction is two bytes (R52). -/
def decodeBytes (o : OrXor) : List Byte → Option (Instr × List Byte)
  | hi :: lo :: rest => (decode o (wordOfBytes hi lo)).map (fun i => (i, rest))
  | _ => none

/-- The instruction read, under DEFAULT, from an instruction whose bits are `w` in the numbering of
opcode_table.json: bit 0 is the least significant bit of the one word. -/
def decodeTableWord (nbits w : Nat) : Option Instr :=
  let op : Word := BitVec.ofNat 16 (w % 2 ^ nbits)
  (decodeBytes Machine.defaultParams.orXor [highByte op, lowByte op]).map (fun p => p.1)

/-! ## Encoding (R45, R47) -/

/-- A word with the fields op and nnn. -/
def wordNnn (op : Nibble) (nnn : Addr) : Word := op ++ nnn

/-- A word with the fields op, x and kk. -/
def wordXKk (op : Nibble) (x : Reg) (kk : Byte) : Word := op ++ (BitVec.ofFin x : Nibble) ++ kk

/-- A word with the fields op, x, y and n. -/
def wordXyN (op : Nibble) (x y : Reg) (n : Nibble) : Word :=
  op ++ (BitVec.ofFin x : Nibble) ++ (BitVec.ofFin y : Nibble) ++ n

/-- The word of an instruction, from the patterns of R47. -/
def encode : Instr → Word
  | .cls         => 0x00E0
  | .ret         => 0x00EE
  | .jp nnn      => wordNnn 0x1 nnn
  | .call nnn    => wordNnn 0x2 nnn
  | .seLit x kk  => wordXKk 0x3 x kk
  | .sneLit x kk => wordXKk 0x4 x kk
  | .seReg x y   => wordXyN 0x5 x y 0x0
  | .ldLit x kk  => wordXKk 0x6 x kk
  | .addLit x kk => wordXKk 0x7 x kk
  | .ldReg x y   => wordXyN 0x8 x y 0x0
  | .orReg x y   => wordXyN 0x8 x y 0x1
  | .andReg x y  => wordXyN 0x8 x y 0x2
  | .xorReg x y  => wordXyN 0x8 x y 0x3
  | .addReg x y  => wordXyN 0x8 x y 0x4
  | .subReg x y  => wordXyN 0x8 x y 0x5
  | .shr x y     => wordXyN 0x8 x y 0x6
  | .sneReg x y  => wordXyN 0x9 x y 0x0
  | .ldI nnn     => wordNnn 0xA nnn
  | .jpV0 nnn    => wordNnn 0xB nnn
  | .rnd x kk    => wordXKk 0xC x kk
  | .drw x y n   => wordXyN 0xD x y n
  | .skp x       => wordXKk 0xE x 0x9E
  | .sknp x      => wordXKk 0xE x 0xA1
  | .ldVxDt x    => wordXKk 0xF x 0x07
  | .ldVxKey x   => wordXKk 0xF x 0x0A
  | .ldDtVx x    => wordXKk 0xF x 0x15
  | .ldStVx x    => wordXKk 0xF x 0x18
  | .addI x      => wordXKk 0xF x 0x1E
  | .ldF x       => wordXKk 0xF x 0x29
  | .ldB x       => wordXKk 0xF x 0x33
  | .storeRegs x => wordXKk 0xF x 0x55
  | .loadRegs x  => wordXKk 0xF x 0x65

/-- The two bytes of an instruction as they lie in memory, lower address first (R33). -/
def encodeBytes (i : Instr) : List Byte := [highByte (encode i), lowByte (encode i)]

/-- The "mask" of the instruction's row of opcode_table.json: a one where the bit is fixed. -/
def Instr.fixedMask : Instr → Word
  | .cls | .ret => 0xFFFF
  | .jp _ | .call _ | .seLit _ _ | .sneLit _ _ | .ldLit _ _ | .addLit _ _ | .ldI _ | .jpV0 _
  | .rnd _ _ | .drw _ _ _ => 0xF000
  | .seReg _ _ | .ldReg _ _ | .orReg _ _ | .andReg _ _ | .xorReg _ _ | .addReg _ _
  | .subReg _ _ | .shr _ _ | .sneReg _ _ => 0xF00F
  | .skp _ | .sknp _ | .ldVxDt _ | .ldVxKey _ | .ldDtVx _ | .ldStVx _ | .addI _ | .ldF _
  | .ldB _ | .storeRegs _ | .loadRegs _ => 0xF0FF

/-- The "match" of the instruction's row of opcode_table.json: the values of its fixed bits. -/
def Instr.fixedBits : Instr → Word
  | .cls => 0x00E0
  | .ret => 0x00EE
  | .jp _ => 0x1000
  | .call _ => 0x2000
  | .seLit _ _ => 0x3000
  | .sneLit _ _ => 0x4000
  | .seReg _ _ => 0x5000
  | .ldLit _ _ => 0x6000
  | .addLit _ _ => 0x7000
  | .ldReg _ _ => 0x8000
  | .orReg _ _ => 0x8001
  | .andReg _ _ => 0x8002
  | .xorReg _ _ => 0x8003
  | .addReg _ _ => 0x8004
  | .subReg _ _ => 0x8005
  | .shr _ _ => 0x8006
  | .sneReg _ _ => 0x9000
  | .ldI _ => 0xA000
  | .jpV0 _ => 0xB000
  | .rnd _ _ => 0xC000
  | .drw _ _ _ => 0xD000
  | .skp _ => 0xE09E
  | .sknp _ => 0xE0A1
  | .ldVxDt _ => 0xF007
  | .ldVxKey _ => 0xF00A
  | .ldDtVx _ => 0xF015
  | .ldStVx _ => 0xF018
  | .addI _ => 0xF01E
  | .ldF _ => 0xF029
  | .ldB _ => 0xF033
  | .storeRegs _ => 0xF055
  | .loadRegs _ => 0xF065

end Sys2Proof
end

