-- ==== Sys2Proof/Machine/Flags.lean ====
section
/-! DEFINITION. Every value VF receives as a flag (spec 10_state.md R14, 42_register_alu.md R75): VF
is written with 0 or 1 and never merged with its old value (R13). Operations are computed exactly
on naturals and compared. -/

namespace Sys2Proof.Machine

/-- A flag as VF holds it. -/
def flagByte (p : Bool) : Byte := if p then 1 else 0

/-- 8xy4: 1 if the 9-bit sum exceeds 255 (R83). -/
def carryFlag (a b : Byte) : Byte := flagByte (decide (a.toNat + b.toNat > 255))

/-- 8xy5: 1 if a > b, or a >= b, by P_SUB_FLAG (R84, D5). -/
def notBorrowFlag (p : SubFlag) (a b : Byte) : Byte :=
  match p with
  | .gt => flagByte (decide (a.toNat > b.toNat))
  | .ge => flagByte (decide (a.toNat ≥ b.toNat))

/-- 8xy6: bit 0 before the shift (R85). -/
def shiftedOutFlag (a : Byte) : Byte := a &&& 1

end Sys2Proof.Machine
end

