-- ==== Sys2Proof/Machine/Memory.lean ====
section
/-! DEFINITION. Memory cells (spec 20_memory.md R29 to R32, R38): a list of (address, byte) pairs in
one canonical form, over the contents memory has after reset. Addresses here are cell indices,
already reduced to 12 bits (`effAddr`, Machine/Operands.lean). -/

namespace Sys2Proof.Machine

/-- What a cell holds that nothing has written: the font at 0x000 to 0x04F, 0 elsewhere (R38, R124).
The ONE definition of what an unlisted address reads as (log entry 7). -/
def Memory.resetByte (font : Font) (a : Nat) : Byte :=
  if h : a < 80 then font[a] else 0

/-- The byte listed at an address, if one is. -/
def Memory.lookup (a : Nat) : List Host.Cell → Option Byte
  | [] => none
  | c :: m => if c.1 = a then some c.2 else Memory.lookup a m

/-- The byte a cell holds (R31). -/
def Memory.read (font : Font) (m : List Host.Cell) (a : Nat) : Byte :=
  (Memory.lookup a m).getD (Memory.resetByte font a)

/-- The list without the entry at an address. -/
def Memory.erase (a : Nat) (m : List Host.Cell) : List Host.Cell :=
  m.filter (fun c => c.1 != a)

/-- An entry put before the first one of higher address. -/
def Memory.insert (a : Nat) (b : Byte) : List Host.Cell → List Host.Cell
  | [] => [(a, b)]
  | c :: m => if a < c.1 then (a, b) :: c :: m else c :: Memory.insert a b m

/-- Writing one cell (R32): the canonical form is kept, so a byte equal to the reset contents is
not listed. -/
def Memory.write (font : Font) (m : List Host.Cell) (a : Nat) (b : Byte) : List Host.Cell :=
  if b = Memory.resetByte font a then Memory.erase a m
  else Memory.insert a b (Memory.erase a m)

/-- The canonical form: addresses strictly rising, each below 4096, no entry equal to the reset
contents. Equal memories are then equal lists. -/
def Memory.wf (font : Font) (m : List Host.Cell) : Bool :=
  decide (m.Pairwise (fun c d => c.1 < d.1)) &&
  m.all (fun c => decide (c.1 < 4096) && c.2 != Memory.resetByte font c.1)

end Sys2Proof.Machine
end

