-- ==== Sys2Proof/Machine/Operands.lean ====
section
/-! DEFINITION. Operand forms (spec 30_encoding.md R46) and the one addressing mode (20_memory.md
R30, 43_index_memory.md R87). Every immediate is an unsigned field taken as it is. -/

namespace Sys2Proof.Machine

/-- The effective address of a memory access: reduced to 12 bits (R30). -/
def effAddr (a : Word) : Nat := (a &&& 0x0FFF).toNat

/-- `zext_16(nnn)`: an address as PC or I takes it (R46). -/
def zextAddr (nnn : Addr) : Word := nnn.setWidth 16

/-- A register as an addend of a 16-bit sum (R73, R89). -/
def zextByte (b : Byte) : Word := b.setWidth 16

/-- The address of font glyph d: 5 * d (R90, R100). -/
def glyphAddr (d : Byte) : Word := zextByte d * 5

/-- The decimal digits of a byte: hundreds, tens, ones (R91). -/
def bcdDigits (v : Byte) : List Byte := [v / 100, v / 10 % 10, v % 10]

/-- The key a register value names, when it is one: 0x0 to 0xF (R101). -/
def keyOfByte (k : Byte) : Option Key :=
  if h : k.toNat < 16 then some ⟨k.toNat, h⟩ else none

/-- The byte that names a key: its index (R104, "canonical value" read as the index, D18). -/
def byteOfKey (k : Key) : Byte := BitVec.ofNat 8 k.val

/-- The register VF (R13). -/
def vf : Reg := 15

end Sys2Proof.Machine
end

