-- ==== Sys2Proof/Machine/State.lean ====
section
/-! DEFINITION. The machine's state (spec 10_state.md R11), its faults, and the state after reset
(R27, 70_reset_and_hazards.md R124). -/

namespace Sys2Proof.Machine

/-- Why a step could stop the MODEL. This machine has no such reason, and the type is empty: the
spec's five step faults (60_exceptions.md R108) leave a state, `Mode.halted`, in which the host's
operations go on working (R109, R110), so they are next states. Safe (log entry 4). -/
inductive Fault where
deriving DecidableEq, Repr

/-- Why the model gives no meaning. -/
inductive Refusal where
  /-- Raised by a refused arm of `exec` for an instruction not modelled yet. No arm of this model is
  refused, so nothing raises it. Safe. -/
  | notModelled (mnemonic : String)
deriving DecidableEq, Repr

/-- The kinds of step fault (R108). -/
inductive FaultKind where
  /-- Raised by decode: the word matches no pattern (30_encoding.md R49). -/
  | unknownOpcode
  /-- Raised by Ex9E and ExA1 when V[x] > 0xF (45_keys_timers.md R101, R102). -/
  | invalidKeyIndex
  /-- Raised by 2nnn when SP = 16 (41_control_flow.md R68). -/
  | stackOverflow
  /-- Raised by 00EE when SP = 0 and P_RET_UNDERFLOW = fault (41_control_flow.md R66). -/
  | stackUnderflow
  /-- Raised by Fx29 when V[x] > 0xF and P_FONT_DIGIT = fault (43_index_memory.md R90). -/
  | invalidFontDigit
deriving DecidableEq, Repr

/-- The fault record of R108, less its `code`, which the kind determines (`FaultKind.code`). -/
structure FaultRecord where
  kind  : FaultKind
  /-- the address of the faulting instruction -/
  pc    : Word
  /-- its 16-bit word -/
  op    : Word
  /-- the offending register value, where one exists -/
  value : Option Byte
deriving DecidableEq, Repr

/-- The key snapshot (R22): true means pressed. -/
abbrev Keys := Vector Bool 16

/-- The framebuffer (R23): 32 rows of 64 pixels; row py, column px is `fb[py][px]`. -/
abbrev Screen := Vector (Vector Bool 64) 32

/-- The engine mode (R24). -/
inductive Mode where
  /-- The next step fetches and executes the instruction at PC. -/
  | running
  /-- An Fx0A waits for a key: its target register and the snapshot it compares against. -/
  | awaitingKey (x : Reg) (baseline : Keys)
  /-- A fault was raised; every step reports it again. -/
  | halted (f : FaultRecord)
deriving DecidableEq, Repr

/-- What a step returns to the host (40_engine_cycle.md R62). -/
structure StepResult where
  draw     : Bool
  fault    : Option FaultRecord
  waiting  : Bool
  selfJump : Bool
deriving DecidableEq, Repr

/-- The state record of R11, and three fields of the model's own (`params`, `result`, `draws`). -/
structure State where
  /-- memory (20_memory.md R29): the cells that differ from their reset contents, by rising address
  (`Memory.wf`); read and written through Machine/Memory.lean only -/
  mem    : List Host.Cell
  /-- V0 to VF (R12) -/
  v      : Vector Byte 16
  /-- the index register I (R16) -/
  i      : Word
  /-- the program counter (R17) -/
  pc     : Word
  /-- the stack pointer: how many slots are occupied, 0 to 16 (R18) -/
  sp     : Fin 17
  /-- the call stack (R19) -/
  stack  : Vector Word 16
  /-- the delay timer (R20) -/
  dt     : Byte
  /-- the sound timer (R21) -/
  st     : Byte
  /-- the key snapshot, written by the host only (R22) -/
  keys   : Keys
  /-- the framebuffer (R23) -/
  fb     : Screen
  /-- the engine mode (R24) -/
  mode   : Mode
  /-- the parameters of 00_scope.md R6. The MODEL's own field (log entry 1) -/
  params : Params
  /-- the result of the last step (R62). The MODEL's own field (log entry 2) -/
  result : StepResult
  /-- how many random bytes have been drawn. The MODEL's own field (log entry 3) -/
  draws  : Nat
deriving DecidableEq, Repr

/-- The state after reset (R27, R124) under the configuration DEFAULT. Memory lists nothing: every
cell holds its reset contents, font or zero (`Memory.resetByte`). The values of I, the stack
slots, the keys, the framebuffer and the mode are the spec's decision D22 (log entry 6); those of
`params`, `result` and `draws` are the model's (log entries 1, 2, 3). -/
def State.reset : State where
  mem    := []
  v      := Vector.replicate 16 0
  i      := 0
  pc     := 0x200
  sp     := 0
  stack  := Vector.replicate 16 0
  dt     := 0
  st     := 0
  keys   := Vector.replicate 16 false
  fb     := Vector.replicate 32 (Vector.replicate 64 false)
  mode   := .running
  params := defaultParams
  result := { draw := false, fault := none, waiting := false, selfJump := false }
  draws  := 0

end Sys2Proof.Machine
end

