-- ==== Sys2Proof/Machine/Ops.lean ====
section
/-! DEFINITION. The named operations over the state, which every meaning is made of: registers,
memory, fetch, the call stack, completing a step (spec 40_engine_cycle.md R59 to R64), and raising a
fault (60_exceptions.md R109), the core's whole trap mechanism. There is no return from a fault
(R114). -/

namespace Sys2Proof.Machine

/-! ## Registers (R12) -/

def State.getV (s : State) (x : Reg) : Byte := s.v[x]

def State.setV (s : State) (x : Reg) (b : Byte) : State := { s with v := s.v.set x b }

/-- `WriteResultAndFlag(x, r, f)` (R76): which of the two writes is last is P_VF_DEST. -/
def State.writeResultAndFlag (s : State) (x : Reg) (r f : Byte) : State :=
  match s.params.vfDest with
  | .result => (s.setV vf f).setV x r
  | .flag   => (s.setV x r).setV vf f

/-! ## Memory (R31 to R34, R36) -/

/-- `MemRead(a, 1)` (R31). -/
def State.readByte (s : State) (a : Word) : Byte :=
  Memory.read s.params.font s.mem (effAddr a)

/-- `MemWrite(a, 1, b)` (R32). -/
def State.writeByte (s : State) (a : Word) (b : Byte) : State :=
  { s with mem := Memory.write s.params.font s.mem (effAddr a) b }

/-- The n bytes from an address up, each address reduced by itself (R36, R87). -/
def State.readBytes (s : State) (a : Word) : Nat → List Byte
  | 0 => []
  | n + 1 => s.readByte a :: State.readBytes s (a + 1) n

/-- Writing bytes from an address up, in order, each address reduced by itself (R36, R87). -/
def State.writeBytes (s : State) (a : Word) : List Byte → State
  | [] => s
  | b :: bs => State.writeBytes (s.writeByte a b) (a + 1) bs

/-- `Fetch(pc)` (R34): big-endian, at any alignment. -/
def State.fetch (s : State) (pc : Word) : Word :=
  wordOfBytes (s.readByte pc) (s.readByte (pc + 1))

/-! ## The call stack (R18, R19) -/

/-- Push a word, unless all 16 slots are occupied. -/
def State.push (s : State) (a : Word) : Option State :=
  if h : s.sp.val < 16 then
    some { s with stack := s.stack.set s.sp.val a, sp := ⟨s.sp.val + 1, by omega⟩ }
  else none

/-- Pop a word, unless no slot is occupied. The slot keeps its value (R66). -/
def State.pop (s : State) : Option (Word × State) :=
  if h : s.sp.val = 0 then none
  else some (s.stack[s.sp.val - 1], { s with sp := ⟨s.sp.val - 1, by omega⟩ })

/-! ## Completing a step (R59 to R64) -/

/-- The result every step starts from (R55): nothing to report. -/
def StepResult.quiet : StepResult :=
  { draw := false, fault := none, waiting := false, selfJump := false }

/-- The step completes with a new PC and nothing to report. -/
def State.complete (s : State) (pc : Word) : State :=
  { s with pc := pc, result := StepResult.quiet }

/-- PC advances past this instruction, modulo 2^16 (R59, D21). -/
def State.advance (s : State) : State := s.complete (s.pc + 2)

/-- As `advance`, with the draw flag set (R63). -/
def State.advanceDrawn (s : State) : State :=
  { s with pc := s.pc + 2, result := { StepResult.quiet with draw := true } }

/-- A skip: PC advances by 4 if the condition holds, else by 2 (R60). -/
def State.skipIf (s : State) (p : Bool) : State :=
  s.complete (s.pc + (if p then 4 else 2))

/-- The engine enters, or stays in, the key wait; PC is not changed (R104). -/
def State.await (s : State) (x : Reg) (baseline : Keys) : State :=
  { s with mode := .awaitingKey x baseline, result := { StepResult.quiet with waiting := true } }

/-! ## Faults (R108 to R110) -/

/-- The numeric code of a fault (R108; the codes are the spec's own labels, D1). -/
def FaultKind.code : FaultKind → Nat
  | .unknownOpcode    => 1
  | .invalidKeyIndex  => 2
  | .stackOverflow    => 3
  | .stackUnderflow   => 4
  | .invalidFontDigit => 5

/-- The `code` field of a fault record (R108). -/
def FaultRecord.code (f : FaultRecord) : Nat := f.kind.code

/-- A step reports a fault (R55, R110): no other field of its result is set. -/
def State.report (s : State) (f : FaultRecord) : State :=
  { s with result := { StepResult.quiet with fault := some f } }

/-- `raise F(pc0, op, value)` (R109): the engine halts, the fault is reported, nothing else
changes. -/
def State.raise (s : State) (kind : FaultKind) (op : Word) (value : Option Byte) : State :=
  let f : FaultRecord := { kind := kind, pc := s.pc, op := op, value := value }
  { s with mode := .halted f }.report f

/-! ## The key wait (R104) -/

/-- Whether a key qualifies at a poll: by P_KEY_WAIT. -/
def keyQualifies (p : KeyWait) (now baseline : Keys) (k : Key) : Bool :=
  match p with
  | .edge  => now[k] && !baseline[k]
  | .level => now[k]

/-- `min(cand)`: the lowest qualifying key, if any qualifies. -/
def lowestKey (p : KeyWait) (now baseline : Keys) : Option Key :=
  (List.finRange 16).find? (keyQualifies p now baseline)

/-- `PollKeyWait(x, baseline)` (R104): what a step does while a key is awaited. -/
def State.pollKeyWait (s : State) (x : Reg) (baseline : Keys) : State :=
  match lowestKey s.params.keyWait s.keys baseline with
  | none   => s.await x s.keys
  | some k => { (s.setV x (byteOfKey k)).advance with mode := .running }

/-! ## Placing an instruction where the next step fetches it -/

/-- The state with the word stored at PC (high byte first, R33) and the engine running, so that the
next step fetches it (log entry 5). -/
def State.placeWord (s : State) (op : Word) : State :=
  { s.writeBytes s.pc [highByte op, lowByte op] with mode := .running }

end Sys2Proof.Machine
end

