-- ==== Sys2Proof/Machine/ControlFlow.lean ====
section
/-! DEFINITION. The meanings of spec 41_control_flow.md: 00EE 1nnn 2nnn 3xkk 4xkk 5xy0 9xy0 Bnnn.
None writes VF. -/

namespace Sys2Proof.Machine

/-- 00EE RET (R66). Underflow by P_RET_UNDERFLOW (D4): `popZero` gives PC = 0x0002 and SP = 0. -/
def execRet (s : State) : Host.Outcome State Fault Refusal :=
  match s.pop with
  | some (a, t) => .next (t.complete (a + 2))
  | none =>
    match s.params.retUnderflow with
    | .fault   => .next (s.raise .stackUnderflow (encode .ret) none)
    | .popZero => .next (s.complete 0x0002)

/-- 1nnn JP nnn (R67), with the self-jump signal under P_SELF_JUMP = on (D10). -/
def execJp (nnn : Addr) (s : State) : Host.Outcome State Fault Refusal :=
  let target := zextAddr nnn
  let loop := decide (s.params.selfJump = .on) && decide (target = s.pc)
  .next { s with pc := target, result := { StepResult.quiet with selfJump := loop } }

/-- 2nnn CALL nnn (R68): the address pushed is the CALL's own. -/
def execCall (nnn : Addr) (s : State) : Host.Outcome State Fault Refusal :=
  match s.push s.pc with
  | some t => .next (t.complete (zextAddr nnn))
  | none   => .next (s.raise .stackOverflow (encode (.call nnn)) none)

/-- 3xkk SE Vx, kk (R69). -/
def execSeLit (x : Reg) (kk : Byte) (s : State) : Host.Outcome State Fault Refusal :=
  .next (s.skipIf (decide (s.getV x = kk)))

/-- 4xkk SNE Vx, kk (R70). -/
def execSneLit (x : Reg) (kk : Byte) (s : State) : Host.Outcome State Fault Refusal :=
  .next (s.skipIf (decide (s.getV x ≠ kk)))

/-- 5xy0 SE Vx, Vy (R71). -/
def execSeReg (x y : Reg) (s : State) : Host.Outcome State Fault Refusal :=
  .next (s.skipIf (decide (s.getV x = s.getV y)))

/-- 9xy0 SNE Vx, Vy (R72). -/
def execSneReg (x y : Reg) (s : State) : Host.Outcome State Fault Refusal :=
  .next (s.skipIf (decide (s.getV x ≠ s.getV y)))

/-- Bnnn JP V0, nnn (R73): the sum is not reduced to 12 bits. -/
def execJpV0 (nnn : Addr) (s : State) : Host.Outcome State Fault Refusal :=
  .next (s.complete (zextAddr nnn + zextByte (s.getV 0)))

end Sys2Proof.Machine
end

