-- ==== Sys2Proof/Machine/Display.lean ====
section
/-! DEFINITION. The meanings of spec 44_display.md: 00E0 and Dxyn, with the sprite format (R95), the
screen-edge policy (R97) and collision (R98). -/

namespace Sys2Proof.Machine

/-- The framebuffer with every pixel 0 (R96). -/
def blankScreen : Screen := Vector.replicate 32 (Vector.replicate 64 false)

/-- 00E0 CLS (R96). -/
def execCls (s : State) : Host.Outcome State Fault Refusal :=
  .next { s with fb := blankScreen }.advanceDrawn

/-- Where a sprite pixel lands (row, column), by P_DRAW_EDGE; `none` when it is discarded (R97). -/
def placePixel (p : DrawEdge) (py px : Nat) : Option (Fin 32 × Fin 64) :=
  match p with
  | .wrap => some (⟨py % 32, by omega⟩, ⟨px % 64, by omega⟩)
  | .clip => if h : py < 32 ∧ px < 64 then some (⟨py, h.1⟩, ⟨px, h.2⟩) else none

/-- The screen pixels that the 1 bits of a sprite row land on, left to right: bit 7 is the leftmost
(R95). PRESUMED: the width and bit order are the spec's own from general knowledge (D12, G2);
unsafe (log entry 8). -/
def rowPixels (p : DrawEdge) (py px0 : Nat) (row : Byte) : List (Fin 32 × Fin 64) :=
  (List.range 8).filterMap fun c =>
    if row.getLsbD (7 - c) then placePixel p py (px0 + c) else none

/-- The screen pixels that a sprite's 1 bits land on, row by row from the top (R95, R99). -/
def spritePixels (p : DrawEdge) (py px0 : Nat) : List Byte → List (Fin 32 × Fin 64)
  | [] => []
  | row :: rows => rowPixels p py px0 row ++ spritePixels p (py + 1) px0 rows

/-- Toggling one pixel; the flag collects whether any pixel toggled was on (R98). -/
def togglePixel (a : Screen × Bool) (q : Fin 32 × Fin 64) : Screen × Bool :=
  let old := a.1[q.1][q.2]
  (a.1.set q.1 (a.1[q.1].set q.2 (!old)), a.2 || old)

/-- The framebuffer after a draw, and whether a pixel collided (R98, R99). -/
def drawPixels (fb : Screen) (qs : List (Fin 32 × Fin 64)) : Screen × Bool :=
  qs.foldl togglePixel (fb, false)

/-- Dxyn DRW Vx, Vy, n (R99): coordinates and sprite bytes are read before VF is written (D33). -/
def execDrw (x y : Reg) (n : Nibble) (s : State) : Host.Outcome State Fault Refusal :=
  let rows := s.readBytes s.i n.toNat
  let d := drawPixels s.fb (spritePixels s.params.drawEdge (s.getV y).toNat (s.getV x).toNat rows)
  .next ({ s with fb := d.1 }.setV vf (flagByte d.2)).advanceDrawn

end Sys2Proof.Machine
end

