-- ==== Sys2Proof/Machine/IndexMemory.lean ====
section
/-! DEFINITION. The meanings of spec 43_index_memory.md: Annn Fx1E Fx29 Fx33 Fx55 Fx65. The j-th byte
moved is at I + j reduced to 12 bits, and I itself is not changed by a transfer (R87, D19). -/

namespace Sys2Proof.Machine

/-- Annn LD I, nnn (R88). -/
def execLdI (nnn : Addr) (s : State) : Host.Outcome State Fault Refusal :=
  .next { s with i := zextAddr nnn }.advance

/-- The sum of Fx1E, by P_ADD_I_WIDTH (R89, D15). -/
def addIndex (w : AddIWidth) (i : Word) (a : Byte) : Word :=
  match w with
  | .w16 => i + zextByte a
  | .w12 => (i + zextByte a) &&& 0x0FFF

/-- Fx1E ADD I, Vx (R89): VF is not written. -/
def execAddI (x : Reg) (s : State) : Host.Outcome State Fault Refusal :=
  .next { s with i := addIndex s.params.addIWidth s.i (s.getV x) }.advance

/-- Fx29 LD F, Vx (R90). A digit above 0xF by P_FONT_DIGIT (D16). -/
def execLdF (x : Reg) (s : State) : Host.Outcome State Fault Refusal :=
  let d := s.getV x
  if d.toNat > 0xF ∧ s.params.fontDigit = .fault then
    .next (s.raise .invalidFontDigit (encode (.ldF x)) (some d))
  else
    .next { s with i := glyphAddr d }.advance

/-- Fx33 LD B, Vx (R91). -/
def execLdB (x : Reg) (s : State) : Host.Outcome State Fault Refusal :=
  .next (s.writeBytes s.i (bcdDigits (s.getV x))).advance

/-- V0 to Vx inclusive, as a list (R92). -/
def State.regsUpTo (s : State) (x : Reg) : List Byte := s.v.toList.take (x.val + 1)

/-- Fx55 LD [I], Vx (R92). -/
def execStoreRegs (x : Reg) (s : State) : Host.Outcome State Fault Refusal :=
  .next (s.writeBytes s.i (s.regsUpTo x)).advance

/-- V0 to Vx loaded from I up, the other registers kept (R93). No byte read depends on a register
written, so the order of the loads does not show. -/
def State.loadUpTo (s : State) (x : Reg) : State :=
  { s with v := Vector.ofFn (fun j : Reg =>
      if j ≤ x then s.readByte (s.i + BitVec.ofNat 16 j.val) else s.getV j) }

/-- Fx65 LD Vx, [I] (R93). -/
def execLoadRegs (x : Reg) (s : State) : Host.Outcome State Fault Refusal :=
  .next (s.loadUpTo x).advance

end Sys2Proof.Machine
end

