-- ==== Sys2Proof/Machine/KeysTimers.lean ====
section
/-! DEFINITION. The meanings of spec 45_keys_timers.md: Ex9E ExA1 Fx07 Fx0A Fx15 Fx18. The polling
step of the key wait is `State.pollKeyWait` (Machine/Ops.lean). None writes VF as a flag. -/

namespace Sys2Proof.Machine

/-- Ex9E SKP Vx (R101): the index is checked when the instruction executes (D28). -/
def execSkp (x : Reg) (s : State) : Host.Outcome State Fault Refusal :=
  match keyOfByte (s.getV x) with
  | some k => .next (s.skipIf s.keys[k])
  | none   => .next (s.raise .invalidKeyIndex (encode (.skp x)) (some (s.getV x)))

/-- ExA1 SKNP Vx (R102). -/
def execSknp (x : Reg) (s : State) : Host.Outcome State Fault Refusal :=
  match keyOfByte (s.getV x) with
  | some k => .next (s.skipIf (!s.keys[k]))
  | none   => .next (s.raise .invalidKeyIndex (encode (.sknp x)) (some (s.getV x)))

/-- Fx07 LD Vx, DT (R103). -/
def execLdVxDt (x : Reg) (s : State) : Host.Outcome State Fault Refusal :=
  .next (s.setV x s.dt).advance

/-- Fx0A LD Vx, K (R104), the step that executes it: the baseline is the snapshot at entry. -/
def execLdVxKey (x : Reg) (s : State) : Host.Outcome State Fault Refusal :=
  .next (s.await x s.keys)

/-- Fx15 LD DT, Vx (R105). -/
def execLdDtVx (x : Reg) (s : State) : Host.Outcome State Fault Refusal :=
  .next { s with dt := s.getV x }.advance

/-- Fx18 LD ST, Vx (R106). -/
def execLdStVx (x : Reg) (s : State) : Host.Outcome State Fault Refusal :=
  .next { s with st := s.getV x }.advance

end Sys2Proof.Machine
end

