-- ==== Sys2Proof/Machine/RegisterAlu.lean ====
section
/-! DEFINITION. The meanings of spec 42_register_alu.md: 6xkk 7xkk 8xy0 to 8xy6 Cxkk. All arithmetic
is unsigned and modulo 256 (R75); none raises a fault; each advances PC by 2. -/

namespace Sys2Proof.Machine

/-- 6xkk LD Vx, kk (R77). -/
def execLdLit (x : Reg) (kk : Byte) (s : State) : Host.Outcome State Fault Refusal :=
  .next (s.setV x kk).advance

/-- 7xkk ADD Vx, kk (R78): no flag. -/
def execAddLit (x : Reg) (kk : Byte) (s : State) : Host.Outcome State Fault Refusal :=
  .next (s.setV x (s.getV x + kk)).advance

/-- 8xy0 LD Vx, Vy (R79). -/
def execLdReg (x y : Reg) (s : State) : Host.Outcome State Fault Refusal :=
  .next (s.setV x (s.getV y)).advance

/-- 8xy1 OR Vx, Vy (R80): no flag (D7). -/
def execOrReg (x y : Reg) (s : State) : Host.Outcome State Fault Refusal :=
  .next (s.setV x (s.getV x ||| s.getV y)).advance

/-- 8xy2 AND Vx, Vy (R81): no flag (D7). -/
def execAndReg (x y : Reg) (s : State) : Host.Outcome State Fault Refusal :=
  .next (s.setV x (s.getV x &&& s.getV y)).advance

/-- 8xy3 XOR Vx, Vy (R82): no flag (D7). -/
def execXorReg (x y : Reg) (s : State) : Host.Outcome State Fault Refusal :=
  .next (s.setV x (s.getV x ^^^ s.getV y)).advance

/-- 8xy4 ADD Vx, Vy (R83). -/
def execAddReg (x y : Reg) (s : State) : Host.Outcome State Fault Refusal :=
  let a := s.getV x
  let b := s.getV y
  .next (s.writeResultAndFlag x (a + b) (carryFlag a b)).advance

/-- 8xy5 SUB Vx, Vy (R84). -/
def execSubReg (x y : Reg) (s : State) : Host.Outcome State Fault Refusal :=
  let a := s.getV x
  let b := s.getV y
  .next (s.writeResultAndFlag x (a - b) (notBorrowFlag s.params.subFlag a b)).advance

/-- 8xy6 SHR Vx (R85): `y` is ignored. -/
def execShr (x _y : Reg) (s : State) : Host.Outcome State Fault Refusal :=
  let a := s.getV x
  .next (s.writeResultAndFlag x (a >>> 1) (shiftedOutFlag a)).advance

/-- Cxkk RND Vx, kk with a given byte drawn (R86). -/
def State.random (s : State) (r : Byte) (x : Reg) (kk : Byte) : State :=
  { s.setV x (r &&& kk) with draws := s.draws + 1 }.advance

/-- Cxkk RND Vx, kk (R86): the byte is the free value `Config.rng` at this draw (D24). -/
def execRnd (x : Reg) (kk : Byte) (s : State) : Host.Outcome State Fault Refusal :=
  .next (s.random (Config.rng s.draws) x kk)

end Sys2Proof.Machine
end

