-- ==== Sys2Proof/Machine/Step.lean ====
section
/-! DEFINITION. `step()` of spec 40_engine_cycle.md R54, R55. -/

namespace Sys2Proof.Machine

/-- One step, by the mode (R55): a halted engine reports its fault, a waiting one polls the keys, a
running one fetches, decodes and executes. -/
def step (s : State) : Host.Outcome State Fault Refusal :=
  match s.mode with
  | .halted f => .next (s.report f)
  | .awaitingKey x baseline => .next (s.pollKeyWait x baseline)
  | .running =>
    match decode s.params.orXor (s.fetch s.pc) with
    | none => .next (s.raise .unknownOpcode (s.fetch s.pc) none)
    | some i => exec i s

/-- The state with an instruction, given by its bits as opcode_table.json numbers them, stored at PC
and the engine running, so that the next step runs it. -/
def State.withFetchWord (s : State) (nbits w : Nat) : State :=
  s.placeWord (BitVec.ofNat 16 (w % 2 ^ nbits))

end Sys2Proof.Machine
end

