-- ==== Sys2Proof/Machine/HostOps.lean ====
section
/-! DEFINITION. The host's operations on the core (spec 60_exceptions.md R115, R117, R118;
70_reset_and_hazards.md R124, R125, R127), each atomic, each between two others. -/

namespace Sys2Proof.Machine

/-- `reset()` (R124), at any time and in any mode. The parameters are no state and stay, so memory
again holds the font of P_FONT; the draws go on (log entries 1, 3). -/
def State.resetOp (s : State) : State :=
  { State.reset with params := s.params, draws := s.draws }

/-- What `load` answers (R107, R125). -/
inductive LoadResult where
  | ok
  /-- RomTooLarge: a load-time error that changes no state and does not halt. -/
  | romTooLarge
deriving DecidableEq, Repr

/-- `load(rom)` (R125): verbatim from 0x200, all or nothing, in any mode (D27). -/
def State.load (s : State) (rom : List Byte) : LoadResult × State :=
  if rom.length > 3584 then (.romTooLarge, s) else (.ok, s.writeBytes 0x200 rom)

/-- `setKeys(k)` (R117): replaces all 16 entries; the wait's baseline is not touched (D25). -/
def State.setKeys (s : State) (k : Keys) : State := { s with keys := k }

/-- A timer after a tick: one less, clamped at 0 (R115). -/
def tickDown (t : Byte) : Byte := if t = 0 then 0 else t - 1

/-- `tickTimers()` (R115), in every mode (D26): true exactly when ST went from 1 to 0. -/
def State.tickTimers (s : State) : Bool × State :=
  (decide (s.st = 1), { s with dt := tickDown s.dt, st := tickDown s.st })

/-- `tone_active` (R21): the tone sounds while ST > 0. -/
def State.toneActive (s : State) : Bool := decide (s.st ≠ 0)

/-- The framebuffer accessor `bool[64*32]` (R23, R28): pixel (px, py) at index py * 64 + px (D13). -/
def State.screenBits (s : State) : Vector Bool 2048 :=
  Vector.ofFn fun k => (s.fb[k.val / 64]'(by omega))[k.val % 64]'(by omega)

/-- One host operation (R118); the accessors, which change nothing, are functions of the state. -/
inductive HostOp where
  | reset
  | load (rom : List Byte)
  | setKeys (k : Keys)
  | step
  | tickTimers
deriving DecidableEq, Repr

/-- What a host operation returns (R118). -/
inductive HostReply where
  | nothing
  | loaded (r : LoadResult)
  | stepped (r : StepResult)
  | toneOff (edge : Bool)
deriving DecidableEq, Repr

/-- The engine after one `step()`: `step` answers a next state always. -/
def State.stepOp (s : State) : State :=
  match step s with
  | .next t => t
  | .fault _ | .refused _ => s

/-- A host operation on the core (R118): its reply and the state it leaves. -/
def State.apply (s : State) : HostOp → HostReply × State
  | .reset      => (.nothing, s.resetOp)
  | .load rom   => let r := s.load rom; (.loaded r.1, r.2)
  | .setKeys k  => (.nothing, s.setKeys k)
  | .step       => let t := s.stepOp; (.stepped t.result, t)
  | .tickTimers => let r := s.tickTimers; (.toneOff r.1, r.2)

/-- A schedule of host operations (R118, R127): any list of them is legal. -/
def State.applyAll (s : State) : List HostOp → State
  | [] => s
  | op :: ops => State.applyAll (s.apply op).2 ops

/-- One frame (R127): the keys, a number of steps (P_STEPS_PER_FRAME, an argument, D29), one tick. -/
def frameOps (k : Keys) (steps : Nat) : List HostOp :=
  HostOp.setKeys k :: List.replicate steps HostOp.step ++ [HostOp.tickTimers]

/-- The boot order (R126): reset, then load; the frames follow. -/
def bootOps (rom : List Byte) : List HostOp := [HostOp.reset, HostOp.load rom]

end Sys2Proof.Machine
end

