-- ==== Sys2Proof/Safety.lean ====
section
/-! DEFINITION. The terms claims are stated in: what a step leaves alone, what each instruction may
write, the program-counter table of spec 40_engine_cycle.md R60, the invariants, and how a run ends
(70_reset_and_hazards.md R128). -/

namespace Sys2Proof.Machine

/-! ## Frames -/

/-- What a step may change. Everything not named here stays: see `Frame`. -/
structure MayChange where
  /-- the registers it may change -/
  regs   : List Reg := []
  index  : Bool := false
  /-- SP and the stack slots -/
  stack  : Bool := false
  dt     : Bool := false
  st     : Bool := false
  screen : Bool := false
  mode   : Bool := false
  draws  : Bool := false
  /-- the bytes it stores: how many, from which address up, each reduced to 12 bits -/
  stored : Word × Nat := (0, 0)
deriving DecidableEq, Repr

/-- The address is none of the n addresses from `base` up, all reduced to 12 bits (R30, R36). -/
def OutsideStore (base : Word) (n : Nat) (a : Word) : Prop :=
  ∀ j, j < n → effAddr (base + BitVec.ofNat 16 j) ≠ effAddr a

/-- From s to t nothing changed but what `c` names, the program counter and the step result. The
keys and the parameters never change in a step (R22, R6); memory is compared byte by byte,
through the model's own read. -/
def Frame (c : MayChange) (s t : State) : Prop :=
  (∀ r : Reg, r ∉ c.regs → t.getV r = s.getV r) ∧
  (c.index = false → t.i = s.i) ∧
  (c.stack = false → t.sp = s.sp ∧ t.stack = s.stack) ∧
  (c.dt = false → t.dt = s.dt) ∧
  (c.st = false → t.st = s.st) ∧
  (c.screen = false → t.fb = s.fb) ∧
  (c.mode = false → t.mode = s.mode) ∧
  (c.draws = false → t.draws = s.draws) ∧
  t.keys = s.keys ∧ t.params = s.params ∧
  (∀ a : Word, OutsideStore c.stored.1 c.stored.2 a → t.readByte a = s.readByte a)

/-! ## Completing and faulting -/

/-- The instruction executes in s: exec answers a next state t, nothing changed from s but what `c`
names, the program counter and the step result, and t meets `post`. -/
def Executes (i : Instr) (s : State) (c : MayChange) (post : State → Prop) : Prop :=
  ∃ t, exec i s = .next t ∧ Frame c s t ∧ post t

/-- The instruction completes in s: exec answers a next state t with this PC and this step result,
nothing changed from s but what `c` names, and t meets `post`. -/
def Completes (i : Instr) (s : State) (c : MayChange) (pc : Word) (r : StepResult)
    (post : State → Prop) : Prop :=
  ∃ t, exec i s = .next t ∧ t.pc = pc ∧ t.result = r ∧ Frame c s t ∧ post t

/-- The instruction faults in s (60_exceptions.md R109): the engine halts with the record, the step
reports it, PC stays, and nothing else changes. -/
def FaultsWith (i : Instr) (s : State) (kind : FaultKind) (value : Option Byte) : Prop :=
  ∃ t, exec i s = .next t ∧
    t.mode = .halted { kind := kind, pc := s.pc, op := encode i, value := value } ∧
    t.result = { draw := false,
                 fault := some { kind := kind, pc := s.pc, op := encode i, value := value },
                 waiting := false, selfJump := false } ∧
    t.pc = s.pc ∧ Frame { mode := true } s t

/-- The registers 0 to x (R92, R93). -/
def regsTo (x : Reg) : List Reg := (List.finRange 16).filter (fun r => decide (r ≤ x))

/-- What each instruction writes when it completes, other than PC and the step result, from the
writers the spec lists: 10_state.md R14, R16, R18, R20, R21, R23, R24 and 20_memory.md R36. -/
def writesOf (s : State) : Instr → MayChange
  | .cls                                => { screen := true }
  | .ret | .call _                      => { stack := true }
  | .jp _ | .jpV0 _                     => {}
  | .seLit _ _ | .sneLit _ _            => {}
  | .seReg _ _ | .sneReg _ _            => {}
  | .skp _ | .sknp _                    => {}
  | .ldLit x _ | .addLit x _            => { regs := [x] }
  | .ldReg x _ | .orReg x _             => { regs := [x] }
  | .andReg x _ | .xorReg x _           => { regs := [x] }
  | .addReg x _ | .subReg x _ | .shr x _ => { regs := [x, vf] }
  | .rnd x _                            => { regs := [x], draws := true }
  | .drw _ _ _                          => { regs := [vf], screen := true }
  | .ldVxDt x                           => { regs := [x] }
  | .ldVxKey _                          => { mode := true }
  | .ldDtVx _                           => { dt := true }
  | .ldStVx _                           => { st := true }
  | .ldI _ | .addI _ | .ldF _           => { index := true }
  | .ldB _                              => { stored := (s.i, 3) }
  | .storeRegs x                        => { stored := (s.i, x.val + 1) }
  | .loadRegs x                         => { regs := regsTo x }

/-! ## The program counter (R59, R60) -/

/-- The table of R60: the PC after an instruction that completes, from the state before it. -/
def pcAfter (s : State) : Instr → Word
  | .jp nnn | .call nnn => zextAddr nnn
  | .ret =>
    if h : s.sp.val = 0 then 0x0002
    else s.stack[s.sp.val - 1] + 2
  | .jpV0 nnn => zextAddr nnn + zextByte (s.getV 0)
  | .seLit x kk => s.pc + (if s.getV x = kk then 4 else 2)
  | .sneLit x kk => s.pc + (if s.getV x = kk then 2 else 4)
  | .seReg x y => s.pc + (if s.getV x = s.getV y then 4 else 2)
  | .sneReg x y => s.pc + (if s.getV x = s.getV y then 2 else 4)
  | .skp x => s.pc + (if (keyOfByte (s.getV x)).any (fun k => s.keys[k]) then 4 else 2)
  | .sknp x => s.pc + (if (keyOfByte (s.getV x)).any (fun k => s.keys[k]) then 2 else 4)
  | .ldVxKey _ => s.pc
  | .cls | .ldLit _ _ | .addLit _ _ | .ldReg _ _ | .orReg _ _ | .andReg _ _ | .xorReg _ _
  | .addReg _ _ | .subReg _ _ | .shr _ _ | .ldI _ | .rnd _ _ | .drw _ _ _ | .ldVxDt _
  | .ldDtVx _ | .ldStVx _ | .addI _ | .ldF _ | .ldB _ | .storeRegs _ | .loadRegs _ => s.pc + 2

/-! ## Sprites, pixel by pixel (R95, R97, R98) -/

/-- A 1 bit of the sprite Dxyn draws in s lands on the pixel at row py, column px: bit 7 - c of row r
belongs to column offset c (R95), and the position is reduced under `wrap` and kept or discarded
under `clip` (R97). -/
def SpriteLights (s : State) (x y : Reg) (n : Nibble) (py : Fin 32) (px : Fin 64) : Prop :=
  ∃ r c : Nat, r < n.toNat ∧ c < 8 ∧
    (s.readByte (s.i + BitVec.ofNat 16 r)).getLsbD (7 - c) = true ∧
    (match s.params.drawEdge with
     | .wrap => ((s.getV y).toNat + r) % 32 = py.val ∧ ((s.getV x).toNat + c) % 64 = px.val
     | .clip => (s.getV y).toNat + r = py.val ∧ (s.getV x).toNat + c = px.val)

/-! ## The key wait (R104) -/

/-- `k` is in the set `cand` of a poll in s against a baseline: pressed now and, under `edge`, not
pressed in the baseline. -/
def KeyCandidate (s : State) (baseline : Keys) (k : Key) : Prop :=
  s.keys[k] = true ∧
  (match s.params.keyWait with
   | .edge  => baseline[k] = false
   | .level => True)

/-! ## Invariants -/

/-- Memory is in its canonical form (Machine/Memory.lean). -/
def State.MemoryCanonical (s : State) : Prop := Memory.wf s.params.font s.mem = true

/-- A waiting engine waits for the Fx0A that stands at PC, and for the register it names (R24, R104,
D18). -/
def State.WaitConsistent (s : State) : Prop :=
  match s.mode with
  | .awaitingKey x _ => decode s.params.orXor (s.fetch s.pc) = some (.ldVxKey x)
  | .running | .halted _ => True

/-- The condition of a fault kind holds in the state (the table of R108), with the record's value. -/
def State.FaultHolds (s : State) (f : FaultRecord) : Prop :=
  let word := decode s.params.orXor (s.fetch s.pc)
  match f.kind with
  | .unknownOpcode => word = none ∧ f.value = none
  | .invalidKeyIndex =>
    ∃ x, (word = some (.skp x) ∨ word = some (.sknp x)) ∧ f.value = some (s.getV x) ∧
      (s.getV x).toNat > 0xF
  | .stackOverflow => (∃ nnn, word = some (.call nnn)) ∧ s.sp.val = 16 ∧ f.value = none
  | .stackUnderflow =>
    word = some .ret ∧ s.sp.val = 0 ∧ s.params.retUnderflow = .fault ∧ f.value = none
  | .invalidFontDigit =>
    ∃ x, word = some (.ldF x) ∧ f.value = some (s.getV x) ∧ (s.getV x).toNat > 0xF ∧
      s.params.fontDigit = .fault

/-- A halted engine's record names the address in PC and the word that stands there, and the fault's
condition still holds (R108, R109, R110: "a fault recurs identically"). -/
def State.HaltConsistent (s : State) : Prop :=
  match s.mode with
  | .halted f => f.pc = s.pc ∧ f.op = s.fetch s.pc ∧ s.FaultHolds f
  | .running | .awaitingKey _ _ => True

/-! ## The end of a run (R128) -/

/-- Case (a): a faulted end, never a good one. -/
def State.FaultedEnd (s : State) : Prop := ∃ f, s.mode = .halted f

/-- Case (b): the last step signalled a jump to itself. -/
def State.SelfJumpEnd (s : State) : Prop := s.result.selfJump = true

end Sys2Proof.Machine
end

