-- ==== Sys2Proof/Certificates/Slice0/Obligations.lean ====
section
/-! DEFINITION. The statements for the provers. Each docstring says which rules of spec/ it states or
rests on; "the spec's decision D<n>" is a choice the spec marks as its own (92_eei_decisions.md)
and the model follows, with the log entry that names it. Every PC clause written with `+` on words
is modulo 2^16 by decision D21 (log entry 10), and every clause about the whole step result rests
on decision D35 (log entry 2). -/

open Sys2Proof Sys2Proof.Machine

/-! ## Encoding -/

/-- One word for each of the sixteen families, a family being a top nibble (30_encoding.md sections 1
and 2), each read off its pattern. That 8AB1 is an instruction under P_OR_XOR = present and none
under absent is the spec's decision D7 (log entry 13); that 5121 and 01E0 are none is its strict
matching, decisions D8 and D9 (log entry 11). A sanity statement. -/
def Obligations.SampleWordsDecode : Prop :=
  decode .present 0x00E0 = some .cls ∧
  decode .present 0x1234 = some (.jp 0x234) ∧
  decode .present 0x2ABC = some (.call 0xABC) ∧
  decode .present 0x3A12 = some (.seLit 0xA 0x12) ∧
  decode .present 0x4B13 = some (.sneLit 0xB 0x13) ∧
  decode .present 0x5120 = some (.seReg 0x1 0x2) ∧
  decode .present 0x6A42 = some (.ldLit 0xA 0x42) ∧
  decode .present 0x7F01 = some (.addLit 0xF 0x01) ∧
  decode .present 0x8AB4 = some (.addReg 0xA 0xB) ∧
  decode .present 0x9340 = some (.sneReg 0x3 0x4) ∧
  decode .present 0xA123 = some (.ldI 0x123) ∧
  decode .present 0xB301 = some (.jpV0 0x301) ∧
  decode .present 0xC30F = some (.rnd 0x3 0x0F) ∧
  decode .present 0xD12F = some (.drw 0x1 0x2 0xF) ∧
  decode .present 0xE7A1 = some (.sknp 0x7) ∧
  decode .present 0xFC65 = some (.loadRegs 0xC) ∧
  decode .present 0x8AB1 = some (.orReg 0xA 0xB) ∧
  decode .absent 0x8AB1 = none ∧
  decode .present 0x5121 = none ∧
  decode .present 0x01E0 = none

/-- Decoding the word of an instruction gives the instruction back, every operand at every value its
field admits, exactly when the configuration has the instruction (8xy1 and 8xy3 by P_OR_XOR, the
spec's decision D7; strict matching is its decision D9: log entries 11 and 13). -/
def Obligations.DecodeInvertsEncode : Prop :=
  ∀ (o : OrXor) (i : Instr), decode o (encode i) = if i.wf o then some i else none

/-- Whatever decodes is the encoding of what it decodes to, so no two instructions share a word and
no bit of a word is dropped (strict matching: the spec's decision D9, log entry 11). -/
def Obligations.EncodeInvertsDecode : Prop :=
  ∀ (o : OrXor) (w : Word) (i : Instr), decode o w = some i → encode i = w ∧ i.wf o = true

/-- Strict matching row by row (the spec's decision D9, log entry 11): a word decodes to an
instruction of a row of opcode_table.json exactly when its bits under the row's mask are the row's
match. The match tells the rows apart. -/
def Obligations.DecodeMatchesFixedBits : Prop :=
  ∀ (o : OrXor) (i : Instr) (w : Word), i.wf o = true →
    (w &&& i.fixedMask = i.fixedBits ↔
      ∃ j, decode o w = some j ∧ j.fixedBits = i.fixedBits)

/-- The bytes of an instruction, high byte first (R33), decode to it and leave the rest of the
stream. -/
def Obligations.EncodedBytesDecode : Prop :=
  ∀ (o : OrXor) (i : Instr) (rest : List Byte), i.wf o = true →
    (encodeBytes i).map BitVec.toNat = [(encode i).toNat / 256, (encode i).toNat % 256] ∧
    decodeBytes o (encodeBytes i ++ rest) = some (i, rest)

/-! ## Memory -/

/-- R32: a write changes exactly one cell, the one at the address reduced to 12 bits, and nothing
else of the machine. -/
def Obligations.WriteChangesOneCell : Prop :=
  ∀ (s : State) (a c : Word) (b : Byte),
    (s.writeByte a b).readByte c =
      (if c.toNat % 4096 = a.toNat % 4096 then b else s.readByte c) ∧
    Frame { stored := (a, 1) } s (s.writeByte a b) ∧
    (s.writeByte a b).pc = s.pc ∧ (s.writeByte a b).result = s.result

/-- R34: the high byte of the fetched word is the cell at PC, the low byte the cell at PC + 1, each
address reduced to 12 bits, at any PC; and a byte stored before is fetched, as either half. -/
def Obligations.FetchIsBigEndian : Prop :=
  ∀ (s : State) (pc : Word),
    (s.fetch pc).toNat =
      256 * (Memory.read s.params.font s.mem (pc.toNat % 4096)).toNat +
        (Memory.read s.params.font s.mem ((pc.toNat + 1) % 4096)).toNat ∧
    ∀ (a : Word) (b : Byte),
      (a.toNat % 4096 = pc.toNat % 4096 →
        ((s.writeByte a b).fetch pc).toNat / 256 = b.toNat) ∧
      (a.toNat % 4096 = (pc.toNat + 1) % 4096 →
        ((s.writeByte a b).fetch pc).toNat % 256 = b.toNat)

/-- A word placed at PC is the word the next step fetches, and an instruction so placed is the one
the next step runs (the host's `withFetchWord`, log entry 5; R43: fetch reads memory as it is). -/
def Obligations.PlacedInstructionRuns : Prop :=
  ∀ (s : State) (w : Word),
    (s.placeWord w).fetch s.pc = w ∧
    (s.placeWord w).pc = s.pc ∧
    Frame { mode := true, stored := (s.pc, 2) } s (s.placeWord w) ∧
    ∀ i, decode s.params.orXor w = some i →
      step (s.withFetchWord 16 w.toNat) = exec i (s.placeWord w)

/-- The canonical form of memory is canonical: two memories in it that read alike at every address
are the same data (the model's own form, log entry 7). -/
def Obligations.CanonicalMemoriesReadingAlikeAreEqual : Prop :=
  ∀ (font : Font) (m m' : List Host.Cell),
    Memory.wf font m = true → Memory.wf font m' = true →
    (∀ a, Memory.read font m a = Memory.read font m' a) → m = m'

/-! ## The step -/

/-- A running engine runs exactly the instruction the word at PC decodes to; nothing is added around
it (40_engine_cycle.md section 1). -/
def Obligations.StepRunsDecodedInstruction : Prop :=
  ∀ (s : State) (i : Instr), s.mode = .running →
    decode s.params.orXor (s.fetch s.pc) = some i → step s = exec i s

/-- A running engine at a word that matches no pattern halts with UnknownOpcode (code 1), reporting
the PC and the word, and changes nothing else. Which words match none is the spec's decisions D8
and D9; halting as a mode is its decision D2 (log entries 4 and 11). -/
def Obligations.UnknownOpcodeHalts : Prop :=
  ∀ s : State, s.mode = .running → decode s.params.orXor (s.fetch s.pc) = none →
    ∃ t f, step s = .next t ∧
      f.kind = .unknownOpcode ∧ f.code = 1 ∧ f.pc = s.pc ∧ f.op = s.fetch s.pc ∧
      f.value = none ∧ t.mode = .halted f ∧ t.pc = s.pc ∧
      t.result = { draw := false, fault := some f, waiting := false, selfJump := false } ∧
      Frame { mode := true } s t

/-- A halted engine reports its fault at every step and changes no state (the spec's decision D2,
log entry 4); the record never changes. -/
def Obligations.HaltedStepReportsAgain : Prop :=
  ∀ (s : State) (f : FaultRecord), s.mode = .halted f →
    ∃ t, step s = .next t ∧ t.mode = .halted f ∧ t.pc = s.pc ∧
      t.result = { draw := false, fault := some f, waiting := false, selfJump := false } ∧
      Frame {} s t

/-- Every step answers a next state: the core never aborts, the spec's faults being states (the
spec's decision D2, log entry 4), and no fetch or memory access can fail. -/
def Obligations.StepAlwaysAnswersNext : Prop :=
  ∀ s : State, ∃ t, step s = .next t

/-- A step that reports a fault leaves the state as it was but for the mode: it is precise and all or
nothing (40_engine_cycle.md section 4, 60_exceptions.md section 2; the spec's decision D2, log
entry 4). -/
def Obligations.FaultingStepIsPrecise : Prop :=
  ∀ (s t : State) (f : FaultRecord), step s = .next t → t.result.fault = some f →
    t = { s with
          mode := .halted f,
          result := { draw := false, fault := some f, waiting := false, selfJump := false } }

/-- The mode transitions a step can make (10_state.md section 7): Running to AwaitingKey by an Fx0A
only, with its register and the keys of that moment; AwaitingKey to itself or to Running, never to
Halted; Halted to itself (the spec's decisions D2, D17, D18; log entries 4 and 18). -/
def Obligations.ModeTransitions : Prop :=
  ∀ s t : State, step s = .next t →
    match s.mode with
    | .running =>
      t.mode = .running ∨
      (∃ x, decode s.params.orXor (s.fetch s.pc) = some (.ldVxKey x) ∧
        t.mode = .awaitingKey x s.keys) ∨
      ∃ f, t.mode = .halted f
    | .awaitingKey x _ => t.mode = .awaitingKey x s.keys ∨ t.mode = .running
    | .halted f => t.mode = .halted f

/-- What the step result says (40_engine_cycle.md section 4): `draw` exactly when 00E0 or Dxyn was
executed; a fault exactly when the engine ends halted with it; `waiting` exactly when it ends
awaiting a key; `self_jump` exactly for a jump to itself under P_SELF_JUMP = on (the spec's
decisions D2, D10, D34, D35; log entries 2, 4, 14 and 17). -/
def Obligations.StepResultFields : Prop :=
  ∀ s t : State, step s = .next t →
    (t.result.draw = true ↔ s.mode = .running ∧
      (decode s.params.orXor (s.fetch s.pc) = some .cls ∨
       ∃ x y n, decode s.params.orXor (s.fetch s.pc) = some (.drw x y n))) ∧
    (∀ f, t.result.fault = some f ↔ t.mode = .halted f) ∧
    (t.result.waiting = true ↔ ∃ x b, t.mode = .awaitingKey x b) ∧
    (t.result.selfJump = true ↔ s.mode = .running ∧ s.params.selfJump = .on ∧
      ∃ nnn, decode s.params.orXor (s.fetch s.pc) = some (.jp nnn) ∧ zextAddr nnn = s.pc)

/-- The PC after every instruction that completes is that of the table in 40_engine_cycle.md
section 3 (arithmetic modulo 2^16 is the spec's decision D21, 00EE under `pop_zero` its decision
D4: log entries 10 and 9). -/
def Obligations.PcFollowsTable : Prop :=
  ∀ (i : Instr) (s t : State), exec i s = .next t → t.result.fault = none →
    t.pc = pcAfter s i

/-- The frame of every instruction: one that completes changes nothing but PC, the step result and
what the spec lists it as a writer of (`writesOf`): its destination registers, VF where it is a
flag, I, the stack, a timer, the screen, the mode, or the bytes it stores, at the addresses its
meaning stores to. Not the source's list but the spec's decisions: 8xy1 to 8xy3 write VF only as
destination (D7, log entry 13), Fx1E does not write VF (D15) and Fx33, Fx55 and Fx65 do not write I
(D19; both log entry 15). The counter of draws is the model's own (log entry 3). -/
def Obligations.InstructionFrame : Prop :=
  ∀ (i : Instr) (s t : State), exec i s = .next t → t.result.fault = none →
    Frame (writesOf s i) s t

/-- The key snapshot is the host's: no step, tick or load changes it, and `setKeys` replaces it and
changes nothing else, not even the wait's baseline (10_state.md section 6, 60_exceptions.md
section 4; the spec's decision D25, log entry 20). That `reset()` clears it is in
`ResetRestoresLifecycleValues`. No operation changes the parameters (log entry 1). -/
def Obligations.OnlyTheHostSetsKeys : Prop :=
  (∀ s t : State, step s = .next t → t.keys = s.keys ∧ t.params = s.params) ∧
  (∀ (s : State) (rom : List Byte), (s.load rom).2.keys = s.keys) ∧
  (∀ s : State, s.tickTimers.2.keys = s.keys) ∧
  (∀ (s : State) (k : Keys), (s.setKeys k).keys = k ∧ { s.setKeys k with keys := s.keys } = s) ∧
  (∀ (s : State) (op : HostOp), (s.apply op).2.params = s.params)

/-- The draw flag is a sound redraw signal: a step that does not set it leaves every pixel as it was
(44_display.md section 1; the flag's rule is the spec's decision D34, log entry 17). -/
def Obligations.ScreenChangesOnlyWithDrawFlag : Prop :=
  ∀ s t : State, step s = .next t → t.result.draw = false → t.fb = s.fb

/-- Determinism (40_engine_cycle.md section 4; conflict C9): a step that does not execute Cxkk does
not depend on how many bytes were drawn before, nor on the last step's result. -/
def Obligations.StepIgnoresRandomnessUnlessRnd : Prop :=
  ∀ (s : State) (n : Nat) (r : StepResult),
    (s.mode = .running →
      ∀ x kk, decode s.params.orXor (s.fetch s.pc) ≠ some (.rnd x kk)) →
    ∃ t, step s = .next t ∧
      step { s with draws := n, result := r } = .next { t with draws := n }

/-! ## Invariants -/

/-- Every step keeps memory in its canonical form, from every state that has it (the model's own
form, log entry 7). -/
def Obligations.StepKeepsMemoryCanonical : Prop :=
  ∀ s t : State, s.MemoryCanonical → step s = .next t → t.MemoryCanonical

/-- Every step keeps this: a waiting engine waits for the Fx0A that stands at PC and for the register
it names (92_eei_decisions.md D18: the latched x and the word's x are always equal). -/
def Obligations.StepKeepsWaitConsistent : Prop :=
  ∀ s t : State, s.WaitConsistent → step s = .next t → t.WaitConsistent

/-- Every step keeps this: a halted engine's record names the address in PC, the word that stands
there, and a fault whose condition still holds in the state, so that re-executing the instruction
would raise the same fault (60_exceptions.md section 2, "a fault recurs identically"; the spec's
decisions D2 and D28, log entry 4). -/
def Obligations.StepKeepsHaltConsistent : Prop :=
  ∀ s t : State, s.HaltConsistent → step s = .next t → t.HaltConsistent

/-- The state after reset meets the three invariants: its memory is in the canonical form, which is the
model's own (log entry 7), and its mode is Running, the spec's decision D22 (log entry 6), in which
no wait and no fault has to be consistent. -/
def Obligations.ResetMeetsInvariants : Prop :=
  State.reset.MemoryCanonical ∧ State.reset.WaitConsistent ∧ State.reset.HaltConsistent

/-- Every schedule of host operations, of any length, keeps memory in its canonical form (the model's
own form, log entry 7; any schedule is legal: the spec's decision D25). -/
def Obligations.HostSchedulesKeepMemoryCanonical : Prop :=
  ∀ (ops : List HostOp) (s : State), s.MemoryCanonical → (s.applyAll ops).MemoryCanonical

/-! ## Reset -/

/-- What `reset()` leaves, from every state: the font of P_FONT at 0x000 to 0x04F and 0 in every other
cell; registers, SP and timers 0; PC 0x200 (70_reset_and_hazards.md section 1). I, the stack slots,
the keys, the framebuffer and the mode are the spec's decision D22 (log entry 6); that the
parameters stay is the model's choice (log entry 1). -/
def Obligations.ResetRestoresLifecycleValues : Prop :=
  ∀ s : State,
    (∀ a : Word, s.resetOp.readByte a =
      if h : a.toNat % 4096 < 80 then s.params.font[a.toNat % 4096] else 0) ∧
    (∀ r : Reg, s.resetOp.getV r = 0) ∧ s.resetOp.i = 0 ∧ s.resetOp.pc = 0x200 ∧
    s.resetOp.sp = 0 ∧ (∀ j : Fin 16, s.resetOp.stack[j] = 0) ∧
    s.resetOp.dt = 0 ∧ s.resetOp.st = 0 ∧ (∀ k : Key, s.resetOp.keys[k] = false) ∧
    (∀ (py : Fin 32) (px : Fin 64), s.resetOp.fb[py][px] = false) ∧
    s.resetOp.mode = .running ∧ s.resetOp.params = s.params ∧
    State.reset.resetOp = State.reset

/-! ## Control flow -/

/-- 1nnn: PC := nnn, any nnn; the self-jump signal exactly for a jump to itself under P_SELF_JUMP = on
(the spec's decision D10, log entry 14). -/
def Obligations.JumpSetsPc : Prop :=
  ∀ (nnn : Addr) (s : State), ∃ t, exec (.jp nnn) s = .next t ∧
    t.pc.toNat = nnn.toNat ∧ Frame {} s t ∧
    t.result.draw = false ∧ t.result.fault = none ∧ t.result.waiting = false ∧
    (t.result.selfJump = true ↔ s.params.selfJump = .on ∧ nnn.toNat = s.pc.toNat)

/-- Bnnn: PC := nnn + V0 as a 16-bit sum, which never wraps and is not reduced to 12 bits (PC is kept
unmasked: the spec's decision D21, log entry 10). -/
def Obligations.JumpOffsetAddsV0 : Prop :=
  ∀ (nnn : Addr) (s : State), ∃ t, exec (.jpV0 nnn) s = .next t ∧
    t.pc.toNat = nnn.toNat + (s.getV 0).toNat ∧ t.result = StepResult.quiet ∧ Frame {} s t

/-- 2nnn with a free slot: the CALL's own address goes to the slot SP names, every other slot keeps
its value, SP grows by one, PC := nnn (41_control_flow.md section 2; the range of SP is the spec's
decision D30, log entry 9). -/
def Obligations.CallPushesItsAddress : Prop :=
  ∀ (nnn : Addr) (s : State), s.sp.val < 16 →
    ∃ t, exec (.call nnn) s = .next t ∧
      t.pc.toNat = nnn.toNat ∧ t.sp.val = s.sp.val + 1 ∧
      (∀ j : Fin 16, t.stack[j] = if j.val = s.sp.val then s.pc else s.stack[j]) ∧
      t.result = StepResult.quiet ∧ Frame { stack := true } s t

/-- 00EE: with an occupied slot, SP shrinks by one, PC becomes that slot's value plus 2 and the slots
keep their values. With none, under P_RET_UNDERFLOW = pop_zero, PC becomes 2 and SP stays 0 (the
spec's decision D4, log entry 9). -/
def Obligations.ReturnPops : Prop :=
  (∀ (s : State) (h : s.sp.val ≠ 0),
    ∃ t, exec .ret s = .next t ∧
      t.pc = s.stack[s.sp.val - 1] + 2 ∧ t.sp.val + 1 = s.sp.val ∧ t.stack = s.stack ∧
      t.result = StepResult.quiet ∧ Frame { stack := true } s t) ∧
  (∀ s : State, s.sp.val = 0 → s.params.retUnderflow = .popZero →
    ∃ t, exec .ret s = .next t ∧
      t.pc = 2 ∧ t.result = StepResult.quiet ∧ Frame {} s t)

/-- A call and the return at its target are a clean round trip: PC is 2 past the CALL, SP is as
before, and no slot below it has changed. -/
def Obligations.CallThenReturnComesBack : Prop :=
  ∀ (nnn : Addr) (s t : State), s.sp.val < 16 → exec (.call nnn) s = .next t →
    ∃ u, exec .ret t = .next u ∧ u.pc = s.pc + 2 ∧ u.sp = s.sp ∧
      (∀ j : Fin 16, j.val ≠ s.sp.val → u.stack[j] = s.stack[j]) ∧
      Frame { stack := true } s u

/-- 3xkk skips (PC + 4) when V[x] = kk and 4xkk when V[x] ≠ kk; otherwise PC + 2, modulo 2^16 (the
spec's decision D21, log entry 10). Neither writes anything else. Their encodings are 0x3000 | x << 8 | kk and 0x4000 | x << 8 | kk. -/
def Obligations.SkipsOnLiteral : Prop :=
  ∀ (x : Reg) (kk : Byte) (s : State),
    (encode (.seLit x kk)).toNat = 0x3000 + x.val * 0x100 + kk.toNat ∧
    (encode (.sneLit x kk)).toNat = 0x4000 + x.val * 0x100 + kk.toNat ∧
    (∃ t, exec (.seLit x kk) s = .next t ∧ t.result = StepResult.quiet ∧ Frame {} s t ∧
      t.pc.toNat = (s.pc.toNat + if s.getV x = kk then 4 else 2) % 2 ^ 16) ∧
    (∃ t, exec (.sneLit x kk) s = .next t ∧ t.result = StepResult.quiet ∧ Frame {} s t ∧
      t.pc.toNat = (s.pc.toNat + if s.getV x = kk then 2 else 4) % 2 ^ 16)

/-- 5xy0 skips when V[x] = V[y] and 9xy0 when they differ; the words 5xyN and 9xyN with N ≠ 0 decode to
nothing (strict matching: the spec's decision D9, log entry 11). -/
def Obligations.SkipsOnRegisters : Prop :=
  (∀ (x y : Reg) (s : State),
    (∃ t, exec (.seReg x y) s = .next t ∧ t.result = StepResult.quiet ∧ Frame {} s t ∧
      t.pc.toNat = (s.pc.toNat + if s.getV x = s.getV y then 4 else 2) % 2 ^ 16) ∧
    (∃ t, exec (.sneReg x y) s = .next t ∧ t.result = StepResult.quiet ∧ Frame {} s t ∧
      t.pc.toNat = (s.pc.toNat + if s.getV x = s.getV y then 2 else 4) % 2 ^ 16)) ∧
  (∀ (o : OrXor) (w : Word), (w.toNat / 4096 = 5 ∨ w.toNat / 4096 = 9) → w.toNat % 16 ≠ 0 →
    decode o w = none)

/-! ## Faults of operands -/

/-- The four faults an instruction raises when it executes (60_exceptions.md section 1): CALL with 16
slots in use, RET with none under P_RET_UNDERFLOW = fault, Ex9E and ExA1 with V[x] > 0xF, Fx29 with
V[x] > 0xF under P_FONT_DIGIT = fault. Each halts, reports, and changes nothing else (the spec's
decisions D1 to D4, D16, D28; log entries 4, 9, 16 and 19). -/
def Obligations.OperandFaultsHalt : Prop :=
  (∀ (nnn : Addr) (s : State), s.sp.val = 16 →
    FaultsWith (.call nnn) s .stackOverflow none) ∧
  (∀ s : State, s.sp.val = 0 → s.params.retUnderflow = .fault →
    FaultsWith .ret s .stackUnderflow none) ∧
  (∀ (x : Reg) (s : State), (s.getV x).toNat > 0xF →
    FaultsWith (.skp x) s .invalidKeyIndex (some (s.getV x)) ∧
    FaultsWith (.sknp x) s .invalidKeyIndex (some (s.getV x))) ∧
  (∀ (x : Reg) (s : State), (s.getV x).toNat > 0xF → s.params.fontDigit = .fault →
    FaultsWith (.ldF x) s .invalidFontDigit (some (s.getV x)))

/-! ## Registers and the ALU -/

/-- R77: 6xkk, V[x] := kk, for every x (x = F loads VF). Its encoding is 0x6000 | x << 8 | kk. -/
def Obligations.LoadLiteral : Prop :=
  ∀ (x : Reg) (kk : Byte) (s : State),
    (encode (.ldLit x kk)).toNat = 0x6000 + x.val * 0x100 + kk.toNat ∧
    Executes (.ldLit x kk) s { regs := [x] }
      (fun t => t.getV x = kk)

/-- R78: 7xkk, V[x] := (V[x] + kk) mod 256, with no flag: VF changes only as destination. Its encoding
is 0x7000 | x << 8 | kk. -/
def Obligations.AddLiteral : Prop :=
  ∀ (x : Reg) (kk : Byte) (s : State),
    (encode (.addLit x kk)).toNat = 0x7000 + x.val * 0x100 + kk.toNat ∧
    Executes (.addLit x kk) s { regs := [x] }
      (fun t => (t.getV x).toNat = ((s.getV x).toNat + kk.toNat) % 256)

/-- R79: 8xy0, V[x] := V[y]. Its encoding is 0x8000 | x << 8 | y << 4. -/
def Obligations.CopyRegister : Prop :=
  ∀ (x y : Reg) (s : State),
    (encode (.ldReg x y)).toNat = 0x8000 + x.val * 0x100 + y.val * 0x10 ∧
    Executes (.ldReg x y) s { regs := [x] }
      (fun t => t.getV x = s.getV y)

/-- 8xy1, 8xy2, 8xy3: the bitwise operations, bit by bit; VF is written only as destination (the
spec's decision D7, log entry 13). -/
def Obligations.BitwiseOperations : Prop :=
  ∀ (x y : Reg) (s : State),
    Completes (.orReg x y) s { regs := [x] } (s.pc + 2) StepResult.quiet
      (fun t => ∀ k, k < 8 →
        (t.getV x).getLsbD k = ((s.getV x).getLsbD k || (s.getV y).getLsbD k)) ∧
    Completes (.andReg x y) s { regs := [x] } (s.pc + 2) StepResult.quiet
      (fun t => ∀ k, k < 8 →
        (t.getV x).getLsbD k = ((s.getV x).getLsbD k && (s.getV y).getLsbD k)) ∧
    Completes (.xorReg x y) s { regs := [x] } (s.pc + 2) StepResult.quiet
      (fun t => ∀ k, k < 8 →
        (t.getV x).getLsbD k = ((s.getV x).getLsbD k ^^ (s.getV y).getLsbD k))

/-- 8xy4: the sum modulo 256, and VF := 1 if the sum exceeds 255, else 0, for every x and y. With
x = F, VF ends with the sum or with the flag by P_VF_DEST (the spec's decision D6, log entry 12). -/
def Obligations.AddSetsCarry : Prop :=
  ∀ (x y : Reg) (s : State),
    Completes (.addReg x y) s { regs := [x, vf] } (s.pc + 2) StepResult.quiet
      (fun t =>
        (x ≠ vf ∨ s.params.vfDest = .result →
          (t.getV x).toNat = ((s.getV x).toNat + (s.getV y).toNat) % 256) ∧
        (x ≠ vf ∨ s.params.vfDest = .flag →
          (t.getV vf).toNat = if (s.getV x).toNat + (s.getV y).toNat > 255 then 1 else 0))

/-- 8xy5: the difference modulo 256, and VF := 1 if V[x] > V[y] (or >= under P_SUB_FLAG = ge, the spec's
decision D5), else 0, for every x and y; with x = F by P_VF_DEST (its decision D6). Log entry 12. -/
def Obligations.SubtractSetsNotBorrow : Prop :=
  ∀ (x y : Reg) (s : State),
    Completes (.subReg x y) s { regs := [x, vf] } (s.pc + 2) StepResult.quiet
      (fun t =>
        (x ≠ vf ∨ s.params.vfDest = .result →
          (t.getV x).toNat = ((s.getV x).toNat + 256 - (s.getV y).toNat) % 256) ∧
        (x ≠ vf ∨ s.params.vfDest = .flag →
          (t.getV vf).toNat =
            if (s.getV x).toNat > (s.getV y).toNat ∨
                (s.params.subFlag = .ge ∧ (s.getV x).toNat = (s.getV y).toNat)
            then 1 else 0))

/-- 8xy6: V[x] shifted right by one, a zero entering, and VF := the bit shifted out; V[y] is not read:
any y gives the same. With x = F by P_VF_DEST (the spec's decision D6, log entry 12). -/
def Obligations.ShiftRight : Prop :=
  ∀ (x y : Reg) (s : State),
    Completes (.shr x y) s { regs := [x, vf] } (s.pc + 2) StepResult.quiet
      (fun t =>
        (x ≠ vf ∨ s.params.vfDest = .result →
          (t.getV x).toNat = (s.getV x).toNat / 2) ∧
        (x ≠ vf ∨ s.params.vfDest = .flag →
          (t.getV vf).toNat = (s.getV x).toNat % 2) ∧
        ∀ z : Reg, exec (.shr x z) s = .next t)

/-- Cxkk completes in every state: V[x] := r AND kk, bit by bit, where r is the byte this execution
draws, `Config.rng` at the number of draws made before it; and it draws one byte afresh (the free
value P_RNG, the spec's decision D24, log entry 3). Nothing is said of r: the statement holds
whatever the bytes are. With kk = 0 the result is 0 whatever the draw, with kk = FF it is the byte
drawn. -/
def Obligations.RandomIsMasked : Prop :=
  ∀ (x : Reg) (kk : Byte) (s : State),
    Completes (.rnd x kk) s { regs := [x], draws := true } (s.pc + 2) StepResult.quiet
      (fun t => t.draws = s.draws + 1 ∧
        (∀ k, k < 8 →
          (t.getV x).getLsbD k = ((Config.rng s.draws).getLsbD k && kk.getLsbD k)) ∧
        (kk = 0 → t.getV x = 0) ∧
        (kk = 0xFF → t.getV x = Config.rng s.draws))

/-! ## The index register and memory transfers -/

/-- R88: Annn, I := nnn; I is at most 0xFFF after it. Its encoding is 0xA000 | nnn. -/
def Obligations.LoadIndex : Prop :=
  ∀ (nnn : Addr) (s : State),
    (encode (.ldI nnn)).toNat = 0xA000 + nnn.toNat ∧
    Executes (.ldI nnn) s { index := true }
      (fun t => t.i.toNat = nnn.toNat ∧ t.i.toNat ≤ 0xFFF)

/-- Fx1E: I := I + V[x] modulo 2^16, or 2^12 by P_ADD_I_WIDTH; VF is not written (the spec's decision
D15, log entry 15). Memory accesses through I reach the same cells under both. -/
def Obligations.AddToIndex : Prop :=
  ∀ (x : Reg) (s : State),
    Completes (.addI x) s { index := true } (s.pc + 2) StepResult.quiet
      (fun t =>
        t.i.toNat =
          (s.i.toNat + (s.getV x).toNat) %
            (match s.params.addIWidth with
             | .w16 => 2 ^ 16
             | .w12 => 2 ^ 12) ∧
        effAddr t.i = (s.i.toNat + (s.getV x).toNat) % 4096)

/-- Fx29: I := 5 * V[x] for a hex digit, and for any V[x] under P_FONT_DIGIT = compute (the spec's
decision D16, log entry 16). -/
def Obligations.FontGlyphAddress : Prop :=
  ∀ (x : Reg) (s : State), ((s.getV x).toNat ≤ 0xF ∨ s.params.fontDigit = .compute) →
    Completes (.ldF x) s { index := true } (s.pc + 2) StepResult.quiet
      (fun t => t.i.toNat = 5 * (s.getV x).toNat)

/-- Fx33 stores the hundreds, tens and ones of V[x] at I, I + 1 and I + 2, each address reduced to 12
bits, and changes no other byte, nor I (the spec's decision D19, log entry 15). Its encoding is 0xF033 | x << 8. -/
def Obligations.StoreDecimalDigits : Prop :=
  ∀ (x : Reg) (s : State),
    (encode (.ldB x)).toNat = 0xF033 + x.val * 0x100 ∧
    Completes (.ldB x) s { stored := (s.i, 3) } (s.pc + 2) StepResult.quiet
      (fun t =>
        (t.readByte s.i).toNat = (s.getV x).toNat / 100 ∧
        (t.readByte (s.i + 1)).toNat = (s.getV x).toNat / 10 % 10 ∧
        (t.readByte (s.i + 2)).toNat = (s.getV x).toNat % 10)

/-- Fx55 stores V0 to Vx at I to I + x, each address reduced to 12 bits, and changes no other byte, nor
I (the spec's decision D19, log entry 15). Its encoding is 0xF055 | x << 8. -/
def Obligations.StoreRegisters : Prop :=
  ∀ (x : Reg) (s : State),
    (encode (.storeRegs x)).toNat = 0xF055 + x.val * 0x100 ∧
    Completes (.storeRegs x) s { stored := (s.i, x.val + 1) } (s.pc + 2) StepResult.quiet
      (fun t => ∀ j : Reg, j ≤ x → t.readByte (s.i + BitVec.ofNat 16 j.val) = s.getV j)

/-- Fx65 loads V0 to Vx from I to I + x, each address reduced to 12 bits, and changes no other register,
nor I (the spec's decision D19, log entry 15). Its encoding is 0xF065 | x << 8. -/
def Obligations.LoadRegisters : Prop :=
  ∀ (x : Reg) (s : State),
    (encode (.loadRegs x)).toNat = 0xF065 + x.val * 0x100 ∧
    Completes (.loadRegs x) s { regs := regsTo x } (s.pc + 2) StepResult.quiet
      (fun t => ∀ j : Reg,
        t.getV j = if j ≤ x then s.readByte (s.i + BitVec.ofNat 16 j.val) else s.getV j)

/-- A store by Fx55 and a load by Fx65 with the same I and x restore the registers exactly, whatever
became of the registers between them, as long as memory and I stand (43_index_memory.md section 3;
I unchanged by both is the spec's decision D19, log entry 15). -/
def Obligations.StoreThenLoadRestores : Prop :=
  ∀ (x : Reg) (s t u : State), exec (.storeRegs x) s = .next t →
    u.mem = t.mem → u.params = t.params → u.i = t.i →
    ∃ w, exec (.loadRegs x) u = .next w ∧ ∀ j : Reg, j ≤ x → w.getV j = s.getV j

/-! ## The display -/

/-- 00E0 clears every pixel, VF unwritten, and sets the draw flag even on a clear screen (the spec's
decision D34, log entry 17). Its encoding is exactly 0x00E0. -/
def Obligations.ClearScreen : Prop :=
  encode .cls = 0x00E0 ∧
  ∀ s : State,
    Completes .cls s { screen := true } (s.pc + 2)
      { draw := true, fault := none, waiting := false, selfJump := false }
      (fun t => ∀ (py : Fin 32) (px : Fin 64), t.fb[py][px] = false)

/-- Dxyn, pixel by pixel and under both values of P_DRAW_EDGE: a pixel is inverted exactly when a 1 bit
of the sprite lands on it (`SpriteLights`: bit 7 leftmost, coordinates from V[x] and V[y] before VF
is written), VF := 1 if such a pixel was on and 0 otherwise, the draw flag is set, and nothing else
changes (the spec's decisions D11, D12, D32, D33, D34; log entries 8 and 17). -/
def Obligations.DrawInvertsSpritePixels : Prop :=
  ∀ (x y : Reg) (n : Nibble) (s : State),
    Completes (.drw x y n) s { regs := [vf], screen := true } (s.pc + 2)
      { draw := true, fault := none, waiting := false, selfJump := false }
      (fun t =>
        (∀ (py : Fin 32) (px : Fin 64),
          (SpriteLights s x y n py px → t.fb[py][px] = !s.fb[py][px]) ∧
          (¬ SpriteLights s x y n py px → t.fb[py][px] = s.fb[py][px])) ∧
        ((∃ (py : Fin 32) (px : Fin 64), SpriteLights s x y n py px ∧ s.fb[py][px] = true) →
          t.getV vf = 1) ∧
        ((¬ ∃ (py : Fin 32) (px : Fin 64), SpriteLights s x y n py px ∧ s.fb[py][px] = true) →
          t.getV vf = 0))

/-- The same draw twice at the same place restores the framebuffer, and the second reports VF = 1
exactly when the first turned on at least one pixel (conflict C16). With x or y = F the coordinate
is VF, which the first draw writes, so the place is not the same. -/
def Obligations.DrawTwiceRestoresScreen : Prop :=
  ∀ (x y : Reg) (n : Nibble) (s t : State), x ≠ vf → y ≠ vf →
    exec (.drw x y n) s = .next t →
    ∃ u, exec (.drw x y n) t = .next u ∧ u.fb = s.fb ∧
      (u.getV vf = 1 ↔
        ∃ (py : Fin 32) (px : Fin 64), s.fb[py][px] = false ∧ t.fb[py][px] = true) ∧
      (u.getV vf = 1 ∨ u.getV vf = 0)

/-! ## Keys and timers -/

/-- Ex9E and ExA1 with V[x] at most 0xF: skip exactly when the key V[x] names is pressed, or is not (the
fault for a larger V[x] is in `OperandFaultsHalt`; the spec's decision D28, log entry 19). -/
def Obligations.KeySkips : Prop :=
  ∀ (x : Reg) (s : State) (h : (s.getV x).toNat < 16),
    Completes (.skp x) s {} (s.pc + if s.keys[(s.getV x).toNat] = true then 4 else 2)
      StepResult.quiet (fun _ => True) ∧
    Completes (.sknp x) s {} (s.pc + if s.keys[(s.getV x).toNat] = true then 2 else 4)
      StepResult.quiet (fun _ => True)

/-- Fx0A, the step that executes it: the engine awaits a key for Vx against the keys of this moment, PC
stays, and nothing else changes, whatever keys are pressed (the spec's decisions D17 and D18, log
entry 18). -/
def Obligations.KeyWaitBegins : Prop :=
  ∀ (x : Reg) (s : State),
    Completes (.ldVxKey x) s { mode := true } s.pc
      { draw := false, fault := none, waiting := true, selfJump := false }
      (fun t => t.mode = .awaitingKey x s.keys)

/-- A polling step: with no candidate key it only moves the baseline to the keys of this moment; with
one, the lowest candidate's index goes to Vx, PC advances by 2 and the engine runs again. A key is
a candidate by P_KEY_WAIT (the spec's decision D17, log entry 18). -/
def Obligations.KeyWaitPolls : Prop :=
  ∀ (s : State) (x : Reg) (b : Keys), s.mode = .awaitingKey x b →
    ((∀ k, ¬ KeyCandidate s b k) →
      ∃ t, step s = .next t ∧ t.mode = .awaitingKey x s.keys ∧ t.pc = s.pc ∧
        t.result = { draw := false, fault := none, waiting := true, selfJump := false } ∧
        Frame { mode := true } s t) ∧
    (∀ k, KeyCandidate s b k → (∀ j, j < k → ¬ KeyCandidate s b j) →
      ∃ t, step s = .next t ∧ t.mode = .running ∧ t.pc = s.pc + 2 ∧
        (t.getV x).toNat = k.val ∧ t.result = StepResult.quiet ∧
        Frame { regs := [x], mode := true } s t)

/-- Fx07, Fx15 and Fx18 are direct copies: V[x] := DT, DT := V[x], ST := V[x]; the tone is active at once
exactly when V[x] > 0 (45_keys_timers.md sections 2 and 4, 10_state.md section 5). -/
def Obligations.TimerCopies : Prop :=
  ∀ (x : Reg) (s : State),
    Completes (.ldVxDt x) s { regs := [x] } (s.pc + 2) StepResult.quiet
      (fun t => t.getV x = s.dt) ∧
    Completes (.ldDtVx x) s { dt := true } (s.pc + 2) StepResult.quiet
      (fun t => t.dt = s.getV x) ∧
    Completes (.ldStVx x) s { st := true } (s.pc + 2) StepResult.quiet
      (fun t => t.st = s.getV x ∧ (t.toneActive = true ↔ (s.getV x).toNat > 0))

/-! ## The host's operations -/

/-- `tickTimers()`: DT and ST go down by one, clamped at 0, in every mode (the spec's decision D26, log
entry 20), nothing else changes, and it answers true exactly when ST went from 1 to 0. -/
def Obligations.TimerTick : Prop :=
  ∀ s : State,
    s.tickTimers.2.dt.toNat = s.dt.toNat - 1 ∧ s.tickTimers.2.st.toNat = s.st.toNat - 1 ∧
    (s.tickTimers.1 = true ↔ s.st.toNat = 1 ∧ s.tickTimers.2.st.toNat = 0) ∧
    { s.tickTimers.2 with dt := s.dt, st := s.st } = s

/-- `load(rom)`: more than 3584 bytes fail and change nothing; otherwise the bytes stand from 0x200 up,
every other byte and all other state as before (in every mode: the spec's decision D27, log
entry 20). -/
def Obligations.LoadIsAllOrNothing : Prop :=
  ∀ (s : State) (rom : List Byte),
    (rom.length > 3584 → s.load rom = (.romTooLarge, s)) ∧
    (rom.length ≤ 3584 →
      (s.load rom).1 = .ok ∧
      (∀ (j : Nat) (hj : j < rom.length),
        (s.load rom).2.readByte (BitVec.ofNat 16 (0x200 + j)) = rom[j]) ∧
      Frame { stored := (0x200, rom.length) } s (s.load rom).2 ∧
      (s.load rom).2.pc = s.pc ∧ (s.load rom).2.result = s.result)
end

