-- ==== Sys2Proof/Laws/Decode.lean ====
section
/-! SUPPORT. The fields of an encoded word (spec 30_encoding.md R45): what each encoder puts in, each
field function reads back; and a word is its fields put together again. -/

namespace Sys2Proof

/-! ## Words and fields as numbers -/

theorem toNat_append_eq {n m : Nat} (a : BitVec n) (b : BitVec m) :
    (a ++ b).toNat = a.toNat * 2 ^ m + b.toNat := by
  rw [BitVec.toNat_append, ← Nat.shiftLeft_add_eq_or_of_lt b.isLt, Nat.shiftLeft_eq]

theorem toNat_wordNnn (op : Nibble) (nnn : Addr) :
    (wordNnn op nnn).toNat = op.toNat * 4096 + nnn.toNat := toNat_append_eq op nnn

theorem toNat_wordXKk (op : Nibble) (x : Reg) (kk : Byte) :
    (wordXKk op x kk).toNat = op.toNat * 4096 + x.val * 256 + kk.toNat := by
  refine (toNat_append_eq (op ++ (BitVec.ofFin x : Nibble)) kk).trans ?_
  rw [toNat_append_eq]
  show (op.toNat * 2 ^ 4 + x.val) * 2 ^ 8 + kk.toNat = _
  omega

theorem toNat_wordXyN (op : Nibble) (x y : Reg) (n : Nibble) :
    (wordXyN op x y n).toNat = op.toNat * 4096 + x.val * 256 + y.val * 16 + n.toNat := by
  refine (toNat_append_eq (op ++ (BitVec.ofFin x : Nibble) ++ (BitVec.ofFin y : Nibble)) n).trans ?_
  rw [toNat_append_eq, toNat_append_eq]
  show ((op.toNat * 2 ^ 4 + x.val) * 2 ^ 4 + y.val) * 2 ^ 4 + n.toNat = _
  omega

theorem toNat_wordOfBytes (hi lo : Byte) :
    (wordOfBytes hi lo).toNat = hi.toNat * 256 + lo.toNat := toNat_append_eq hi lo

theorem toNat_fieldOp (w : Word) : (fieldOp w).toNat = w.toNat / 4096 := by
  have := w.isLt
  simp only [fieldOp, BitVec.extractLsb'_toNat, Nat.shiftRight_eq_div_pow]
  omega

theorem val_fieldX (w : Word) : (fieldX w).val = w.toNat / 256 % 16 := by
  show (w.extractLsb' 8 4).toNat = _
  simp only [BitVec.extractLsb'_toNat, Nat.shiftRight_eq_div_pow]

theorem val_fieldY (w : Word) : (fieldY w).val = w.toNat / 16 % 16 := by
  show (w.extractLsb' 4 4).toNat = _
  simp only [BitVec.extractLsb'_toNat, Nat.shiftRight_eq_div_pow]

theorem toNat_fieldN (w : Word) : (fieldN w).toNat = w.toNat % 16 := by
  simp only [fieldN, BitVec.extractLsb'_toNat, Nat.shiftRight_eq_div_pow]
  omega

theorem toNat_fieldKk (w : Word) : (fieldKk w).toNat = w.toNat % 256 := by
  simp only [fieldKk, BitVec.extractLsb'_toNat, Nat.shiftRight_eq_div_pow]
  omega

theorem toNat_fieldNnn (w : Word) : (fieldNnn w).toNat = w.toNat % 4096 := by
  simp only [fieldNnn, BitVec.extractLsb'_toNat, Nat.shiftRight_eq_div_pow]
  omega

theorem toNat_highByte (w : Word) : (highByte w).toNat = w.toNat / 256 := by
  have := w.isLt
  simp only [highByte, BitVec.extractLsb'_toNat, Nat.shiftRight_eq_div_pow]
  omega

theorem toNat_lowByte (w : Word) : (lowByte w).toNat = w.toNat % 256 := by
  simp only [lowByte, BitVec.extractLsb'_toNat, Nat.shiftRight_eq_div_pow]
  omega

/-! ## Fields of encoded words -/

@[simp] theorem fieldOp_wordNnn (op : Nibble) (nnn : Addr) : fieldOp (wordNnn op nnn) = op := by
  apply BitVec.eq_of_toNat_eq
  rw [toNat_fieldOp, toNat_wordNnn]
  have := nnn.isLt
  omega

@[simp] theorem fieldNnn_wordNnn (op : Nibble) (nnn : Addr) :
    fieldNnn (wordNnn op nnn) = nnn := by
  apply BitVec.eq_of_toNat_eq
  rw [toNat_fieldNnn, toNat_wordNnn]
  have := nnn.isLt
  omega

@[simp] theorem fieldOp_wordXKk (op : Nibble) (x : Reg) (kk : Byte) :
    fieldOp (wordXKk op x kk) = op := by
  apply BitVec.eq_of_toNat_eq
  rw [toNat_fieldOp, toNat_wordXKk]
  have := kk.isLt
  omega

@[simp] theorem fieldX_wordXKk (op : Nibble) (x : Reg) (kk : Byte) :
    fieldX (wordXKk op x kk) = x := by
  apply Fin.ext
  rw [val_fieldX, toNat_wordXKk]
  have := kk.isLt
  omega

@[simp] theorem fieldKk_wordXKk (op : Nibble) (x : Reg) (kk : Byte) :
    fieldKk (wordXKk op x kk) = kk := by
  apply BitVec.eq_of_toNat_eq
  rw [toNat_fieldKk, toNat_wordXKk]
  have := kk.isLt
  omega

@[simp] theorem fieldOp_wordXyN (op : Nibble) (x y : Reg) (n : Nibble) :
    fieldOp (wordXyN op x y n) = op := by
  apply BitVec.eq_of_toNat_eq
  rw [toNat_fieldOp, toNat_wordXyN]
  have := n.isLt
  omega

@[simp] theorem fieldX_wordXyN (op : Nibble) (x y : Reg) (n : Nibble) :
    fieldX (wordXyN op x y n) = x := by
  apply Fin.ext
  rw [val_fieldX, toNat_wordXyN]
  have := n.isLt
  omega

@[simp] theorem fieldY_wordXyN (op : Nibble) (x y : Reg) (n : Nibble) :
    fieldY (wordXyN op x y n) = y := by
  apply Fin.ext
  rw [val_fieldY, toNat_wordXyN]
  have := n.isLt
  omega

@[simp] theorem fieldN_wordXyN (op : Nibble) (x y : Reg) (n : Nibble) :
    fieldN (wordXyN op x y n) = n := by
  apply BitVec.eq_of_toNat_eq
  rw [toNat_fieldN, toNat_wordXyN]
  have := n.isLt
  omega

/-! ## Words from their fields -/

theorem wordNnn_fields (w : Word) : wordNnn (fieldOp w) (fieldNnn w) = w := by
  apply BitVec.eq_of_toNat_eq
  rw [toNat_wordNnn, toNat_fieldOp, toNat_fieldNnn]
  omega

theorem wordXKk_fields (w : Word) : wordXKk (fieldOp w) (fieldX w) (fieldKk w) = w := by
  apply BitVec.eq_of_toNat_eq
  rw [toNat_wordXKk, toNat_fieldOp, val_fieldX, toNat_fieldKk]
  omega

theorem wordXyN_fields (w : Word) :
    wordXyN (fieldOp w) (fieldX w) (fieldY w) (fieldN w) = w := by
  apply BitVec.eq_of_toNat_eq
  rw [toNat_wordXyN, toNat_fieldOp, val_fieldX, val_fieldY, toNat_fieldN]
  omega

/-- A word is its two bytes put together again (R33). -/
@[simp] theorem wordOfBytes_bytes (w : Word) : wordOfBytes (highByte w) (lowByte w) = w := by
  apply BitVec.eq_of_toNat_eq
  rw [toNat_wordOfBytes, toNat_highByte, toNat_lowByte]
  omega

@[simp] theorem highByte_wordOfBytes (hi lo : Byte) : highByte (wordOfBytes hi lo) = hi := by
  apply BitVec.eq_of_toNat_eq
  rw [toNat_highByte, toNat_wordOfBytes]
  have := lo.isLt
  omega

@[simp] theorem lowByte_wordOfBytes (hi lo : Byte) : lowByte (wordOfBytes hi lo) = lo := by
  apply BitVec.eq_of_toNat_eq
  rw [toNat_lowByte, toNat_wordOfBytes]
  have := lo.isLt
  omega

end Sys2Proof
end

