-- ==== Sys2Proof/Laws/Memory.lean ====
section
/-! SUPPORT. The laws of memory (spec 20_memory.md R31, R32): a read after a write gives the byte
written there and the old byte elsewhere, for every list, canonical or not; and every write keeps
the canonical form. -/

namespace Sys2Proof.Machine

theorem Memory.lookup_erase (a c : Nat) (m : List Host.Cell) :
    Memory.lookup c (Memory.erase a m) = if c = a then none else Memory.lookup c m := by
  induction m with
  | nil => simp [Memory.erase, Memory.lookup]
  | cons d m ih =>
    unfold Memory.erase at ih ⊢
    by_cases hd : d.1 = a
    · by_cases hc : c = a
      · simp_all
      · have : d.1 ≠ c := fun h => hc (h ▸ hd)
        simp_all [Memory.lookup]
    · by_cases hc : d.1 = c
      · have : c ≠ a := fun h => hd (hc.trans h)
        simp_all [Memory.lookup]
      · simp_all [Memory.lookup]

/-- An entry inserted into a list that does not list its address is found; no other read changes. -/
theorem Memory.lookup_insert (a c : Nat) (b : Byte) (m : List Host.Cell)
    (hm : Memory.lookup a m = none) :
    Memory.lookup c (Memory.insert a b m) = if c = a then some b else Memory.lookup c m := by
  induction m with
  | nil =>
    by_cases h : a = c
    · simp [Memory.insert, Memory.lookup, h]
    · simp [Memory.insert, Memory.lookup, h, Ne.symm h]
  | cons d m ih =>
    have hd : d.1 ≠ a := by
      intro h; simp [Memory.lookup, h] at hm
    have hm' : Memory.lookup a m = none := by
      simpa [Memory.lookup, hd] using hm
    unfold Memory.insert
    split
    · by_cases h : a = c
      · simp [Memory.lookup, h]
      · simp [Memory.lookup, h, Ne.symm h]
    · by_cases hc : d.1 = c
      · have : c ≠ a := fun h => hd (hc.trans h)
        simp [Memory.lookup, hc, this]
      · simp [Memory.lookup, hc, ih hm']

/-- Everything a write does to the reads that follow it (R32, R41). -/
theorem Memory.read_write (font : Font) (m : List Host.Cell) (a c : Nat) (b : Byte) :
    Memory.read font (Memory.write font m a b) c = if c = a then b else Memory.read font m c := by
  have he : Memory.lookup a (Memory.erase a m) = none := by simp [Memory.lookup_erase]
  unfold Memory.read Memory.write
  split
  · rename_i hb
    rw [Memory.lookup_erase]
    by_cases h : c = a <;> simp [h, hb]
  · rw [Memory.lookup_insert _ _ _ _ he, Memory.lookup_erase]
    by_cases h : c = a <;> simp [h]

@[simp] theorem Memory.read_nil (font : Font) (a : Nat) :
    Memory.read font [] a = Memory.resetByte font a := rfl

/-! ## The canonical form -/

/-- The canonical form, as a proposition. -/
theorem Memory.wf_iff (font : Font) (m : List Host.Cell) :
    Memory.wf font m = true ↔
      m.Pairwise (fun c d => c.1 < d.1) ∧
      ∀ c ∈ m, c.1 < 4096 ∧ c.2 ≠ Memory.resetByte font c.1 := by
  simp [Memory.wf]

theorem Memory.mem_insert (a : Nat) (b : Byte) (m : List Host.Cell) (c : Host.Cell) :
    c ∈ Memory.insert a b m ↔ c = (a, b) ∨ c ∈ m := by
  induction m with
  | nil => simp [Memory.insert]
  | cons d m ih =>
    unfold Memory.insert
    split
    · simp
    · simp only [List.mem_cons, ih]; tauto

theorem Memory.pairwise_insert (a : Nat) (b : Byte) (m : List Host.Cell)
    (hp : m.Pairwise (fun c d => c.1 < d.1)) (hm : ∀ c ∈ m, c.1 ≠ a) :
    (Memory.insert a b m).Pairwise (fun c d => c.1 < d.1) := by
  induction m with
  | nil => simp [Memory.insert]
  | cons d m ih =>
    obtain ⟨hd, hp'⟩ := List.pairwise_cons.mp hp
    unfold Memory.insert
    split
    · rename_i hlt
      refine List.pairwise_cons.mpr ⟨?_, hp⟩
      intro c hc
      rcases List.mem_cons.mp hc with rfl | hc
      · exact hlt
      · exact Nat.lt_trans hlt (hd c hc)
    · rename_i hlt
      refine List.pairwise_cons.mpr ⟨?_, ih hp' fun c hc => hm c (List.mem_cons_of_mem _ hc)⟩
      intro c hc
      rcases (Memory.mem_insert a b m c).mp hc with rfl | hc
      · have := hm d List.mem_cons_self
        show d.1 < a
        omega
      · exact hd c hc

/-- Every write to a cell keeps the canonical form. -/
theorem Memory.wf_write (font : Font) (m : List Host.Cell) (a : Nat) (b : Byte)
    (ha : a < 4096) (h : Memory.wf font m = true) :
    Memory.wf font (Memory.write font m a b) = true := by
  obtain ⟨hp, hm⟩ := (Memory.wf_iff font m).mp h
  have hpe : (Memory.erase a m).Pairwise (fun c d => c.1 < d.1) := hp.filter _
  have hme : ∀ c ∈ Memory.erase a m, c ∈ m ∧ c.1 ≠ a := by
    intro c hc; simpa [Memory.erase] using hc
  rw [Memory.wf_iff]
  unfold Memory.write
  split
  · exact ⟨hpe, fun c hc => hm c (hme c hc).1⟩
  · rename_i hb
    refine ⟨Memory.pairwise_insert a b _ hpe fun c hc => (hme c hc).2, ?_⟩
    intro c hc
    rcases (Memory.mem_insert a b _ c).mp hc with rfl | hc
    · exact ⟨ha, hb⟩
    · exact hm c (hme c hc).1

@[simp] theorem Memory.wf_nil (font : Font) : Memory.wf font [] = true := rfl

end Sys2Proof.Machine
end

