-- ==== Sys2Proof/Laws/State.lean ====
section
/-! SUPPORT. One lemma per field per update of the state, each true by unfolding, so that no later
proof unfolds a record update. -/

namespace Sys2Proof.Machine

/-! ## `setV` (R12) -/

@[simp] theorem State.setV_mem (s : State) (x : Reg) (b : Byte) : (s.setV x b).mem = s.mem := rfl
@[simp] theorem State.setV_v (s : State) (x : Reg) (b : Byte) :
    (s.setV x b).v = s.v.set x b := rfl
@[simp] theorem State.setV_i (s : State) (x : Reg) (b : Byte) : (s.setV x b).i = s.i := rfl
@[simp] theorem State.setV_pc (s : State) (x : Reg) (b : Byte) : (s.setV x b).pc = s.pc := rfl
@[simp] theorem State.setV_sp (s : State) (x : Reg) (b : Byte) : (s.setV x b).sp = s.sp := rfl
@[simp] theorem State.setV_stack (s : State) (x : Reg) (b : Byte) :
    (s.setV x b).stack = s.stack := rfl
@[simp] theorem State.setV_dt (s : State) (x : Reg) (b : Byte) : (s.setV x b).dt = s.dt := rfl
@[simp] theorem State.setV_st (s : State) (x : Reg) (b : Byte) : (s.setV x b).st = s.st := rfl
@[simp] theorem State.setV_keys (s : State) (x : Reg) (b : Byte) :
    (s.setV x b).keys = s.keys := rfl
@[simp] theorem State.setV_fb (s : State) (x : Reg) (b : Byte) : (s.setV x b).fb = s.fb := rfl
@[simp] theorem State.setV_mode (s : State) (x : Reg) (b : Byte) :
    (s.setV x b).mode = s.mode := rfl
@[simp] theorem State.setV_params (s : State) (x : Reg) (b : Byte) :
    (s.setV x b).params = s.params := rfl
@[simp] theorem State.setV_result (s : State) (x : Reg) (b : Byte) :
    (s.setV x b).result = s.result := rfl
@[simp] theorem State.setV_draws (s : State) (x : Reg) (b : Byte) :
    (s.setV x b).draws = s.draws := rfl
@[simp] theorem State.setV_readByte (s : State) (x : Reg) (b : Byte) (c : Word) :
    (s.setV x b).readByte c = s.readByte c := rfl
@[simp] theorem State.setV_fetch (s : State) (x : Reg) (b : Byte) (c : Word) :
    (s.setV x b).fetch c = s.fetch c := rfl

/-! ## `writeByte` (R32) -/

@[simp] theorem State.writeByte_mem (s : State) (a : Word) (b : Byte) :
    (s.writeByte a b).mem = Memory.write s.params.font s.mem (effAddr a) b := rfl
@[simp] theorem State.writeByte_v (s : State) (a : Word) (b : Byte) :
    (s.writeByte a b).v = s.v := rfl
@[simp] theorem State.writeByte_i (s : State) (a : Word) (b : Byte) :
    (s.writeByte a b).i = s.i := rfl
@[simp] theorem State.writeByte_pc (s : State) (a : Word) (b : Byte) :
    (s.writeByte a b).pc = s.pc := rfl
@[simp] theorem State.writeByte_sp (s : State) (a : Word) (b : Byte) :
    (s.writeByte a b).sp = s.sp := rfl
@[simp] theorem State.writeByte_stack (s : State) (a : Word) (b : Byte) :
    (s.writeByte a b).stack = s.stack := rfl
@[simp] theorem State.writeByte_dt (s : State) (a : Word) (b : Byte) :
    (s.writeByte a b).dt = s.dt := rfl
@[simp] theorem State.writeByte_st (s : State) (a : Word) (b : Byte) :
    (s.writeByte a b).st = s.st := rfl
@[simp] theorem State.writeByte_keys (s : State) (a : Word) (b : Byte) :
    (s.writeByte a b).keys = s.keys := rfl
@[simp] theorem State.writeByte_fb (s : State) (a : Word) (b : Byte) :
    (s.writeByte a b).fb = s.fb := rfl
@[simp] theorem State.writeByte_mode (s : State) (a : Word) (b : Byte) :
    (s.writeByte a b).mode = s.mode := rfl
@[simp] theorem State.writeByte_params (s : State) (a : Word) (b : Byte) :
    (s.writeByte a b).params = s.params := rfl
@[simp] theorem State.writeByte_result (s : State) (a : Word) (b : Byte) :
    (s.writeByte a b).result = s.result := rfl
@[simp] theorem State.writeByte_draws (s : State) (a : Word) (b : Byte) :
    (s.writeByte a b).draws = s.draws := rfl
@[simp] theorem State.writeByte_getV (s : State) (a : Word) (b : Byte) (r : Reg) :
    (s.writeByte a b).getV r = s.getV r := rfl

/-! ## `complete` (R59) -/

@[simp] theorem State.complete_mem (s : State) (p : Word) : (s.complete p).mem = s.mem := rfl
@[simp] theorem State.complete_v (s : State) (p : Word) : (s.complete p).v = s.v := rfl
@[simp] theorem State.complete_i (s : State) (p : Word) : (s.complete p).i = s.i := rfl
@[simp] theorem State.complete_pc (s : State) (p : Word) : (s.complete p).pc = p := rfl
@[simp] theorem State.complete_sp (s : State) (p : Word) : (s.complete p).sp = s.sp := rfl
@[simp] theorem State.complete_stack (s : State) (p : Word) :
    (s.complete p).stack = s.stack := rfl
@[simp] theorem State.complete_dt (s : State) (p : Word) : (s.complete p).dt = s.dt := rfl
@[simp] theorem State.complete_st (s : State) (p : Word) : (s.complete p).st = s.st := rfl
@[simp] theorem State.complete_keys (s : State) (p : Word) : (s.complete p).keys = s.keys := rfl
@[simp] theorem State.complete_fb (s : State) (p : Word) : (s.complete p).fb = s.fb := rfl
@[simp] theorem State.complete_mode (s : State) (p : Word) : (s.complete p).mode = s.mode := rfl
@[simp] theorem State.complete_params (s : State) (p : Word) :
    (s.complete p).params = s.params := rfl
@[simp] theorem State.complete_result (s : State) (p : Word) :
    (s.complete p).result = StepResult.quiet := rfl
@[simp] theorem State.complete_draws (s : State) (p : Word) :
    (s.complete p).draws = s.draws := rfl
@[simp] theorem State.complete_getV (s : State) (p : Word) (r : Reg) :
    (s.complete p).getV r = s.getV r := rfl
@[simp] theorem State.complete_readByte (s : State) (p : Word) (c : Word) :
    (s.complete p).readByte c = s.readByte c := rfl
@[simp] theorem State.complete_fetch (s : State) (p : Word) (c : Word) :
    (s.complete p).fetch c = s.fetch c := rfl

/-! ## `advance` (R60) -/

@[simp] theorem State.advance_mem (s : State) : (s.advance).mem = s.mem := rfl
@[simp] theorem State.advance_v (s : State) : (s.advance).v = s.v := rfl
@[simp] theorem State.advance_i (s : State) : (s.advance).i = s.i := rfl
@[simp] theorem State.advance_pc (s : State) : (s.advance).pc = s.pc + 2 := rfl
@[simp] theorem State.advance_sp (s : State) : (s.advance).sp = s.sp := rfl
@[simp] theorem State.advance_stack (s : State) : (s.advance).stack = s.stack := rfl
@[simp] theorem State.advance_dt (s : State) : (s.advance).dt = s.dt := rfl
@[simp] theorem State.advance_st (s : State) : (s.advance).st = s.st := rfl
@[simp] theorem State.advance_keys (s : State) : (s.advance).keys = s.keys := rfl
@[simp] theorem State.advance_fb (s : State) : (s.advance).fb = s.fb := rfl
@[simp] theorem State.advance_mode (s : State) : (s.advance).mode = s.mode := rfl
@[simp] theorem State.advance_params (s : State) : (s.advance).params = s.params := rfl
@[simp] theorem State.advance_result (s : State) : (s.advance).result = StepResult.quiet := rfl
@[simp] theorem State.advance_draws (s : State) : (s.advance).draws = s.draws := rfl
@[simp] theorem State.advance_getV (s : State) (r : Reg) :
    (s.advance).getV r = s.getV r := rfl
@[simp] theorem State.advance_readByte (s : State) (c : Word) :
    (s.advance).readByte c = s.readByte c := rfl
@[simp] theorem State.advance_fetch (s : State) (c : Word) :
    (s.advance).fetch c = s.fetch c := rfl

/-! ## `advanceDrawn` (R63) -/

@[simp] theorem State.advanceDrawn_mem (s : State) : (s.advanceDrawn).mem = s.mem := rfl
@[simp] theorem State.advanceDrawn_v (s : State) : (s.advanceDrawn).v = s.v := rfl
@[simp] theorem State.advanceDrawn_i (s : State) : (s.advanceDrawn).i = s.i := rfl
@[simp] theorem State.advanceDrawn_pc (s : State) : (s.advanceDrawn).pc = s.pc + 2 := rfl
@[simp] theorem State.advanceDrawn_sp (s : State) : (s.advanceDrawn).sp = s.sp := rfl
@[simp] theorem State.advanceDrawn_stack (s : State) : (s.advanceDrawn).stack = s.stack := rfl
@[simp] theorem State.advanceDrawn_dt (s : State) : (s.advanceDrawn).dt = s.dt := rfl
@[simp] theorem State.advanceDrawn_st (s : State) : (s.advanceDrawn).st = s.st := rfl
@[simp] theorem State.advanceDrawn_keys (s : State) : (s.advanceDrawn).keys = s.keys := rfl
@[simp] theorem State.advanceDrawn_fb (s : State) : (s.advanceDrawn).fb = s.fb := rfl
@[simp] theorem State.advanceDrawn_mode (s : State) : (s.advanceDrawn).mode = s.mode := rfl
@[simp] theorem State.advanceDrawn_params (s : State) : (s.advanceDrawn).params = s.params := rfl
@[simp] theorem State.advanceDrawn_result (s : State) :
    (s.advanceDrawn).result = { StepResult.quiet with draw := true } := rfl
@[simp] theorem State.advanceDrawn_draws (s : State) : (s.advanceDrawn).draws = s.draws := rfl
@[simp] theorem State.advanceDrawn_getV (s : State) (r : Reg) :
    (s.advanceDrawn).getV r = s.getV r := rfl
@[simp] theorem State.advanceDrawn_readByte (s : State) (c : Word) :
    (s.advanceDrawn).readByte c = s.readByte c := rfl
@[simp] theorem State.advanceDrawn_fetch (s : State) (c : Word) :
    (s.advanceDrawn).fetch c = s.fetch c := rfl

/-! ## `skipIf` (R60) -/

@[simp] theorem State.skipIf_mem (s : State) (p : Bool) : (s.skipIf p).mem = s.mem := rfl
@[simp] theorem State.skipIf_v (s : State) (p : Bool) : (s.skipIf p).v = s.v := rfl
@[simp] theorem State.skipIf_i (s : State) (p : Bool) : (s.skipIf p).i = s.i := rfl
@[simp] theorem State.skipIf_pc (s : State) (p : Bool) :
    (s.skipIf p).pc = s.pc + (if p then 4 else 2) := rfl
@[simp] theorem State.skipIf_sp (s : State) (p : Bool) : (s.skipIf p).sp = s.sp := rfl
@[simp] theorem State.skipIf_stack (s : State) (p : Bool) : (s.skipIf p).stack = s.stack := rfl
@[simp] theorem State.skipIf_dt (s : State) (p : Bool) : (s.skipIf p).dt = s.dt := rfl
@[simp] theorem State.skipIf_st (s : State) (p : Bool) : (s.skipIf p).st = s.st := rfl
@[simp] theorem State.skipIf_keys (s : State) (p : Bool) : (s.skipIf p).keys = s.keys := rfl
@[simp] theorem State.skipIf_fb (s : State) (p : Bool) : (s.skipIf p).fb = s.fb := rfl
@[simp] theorem State.skipIf_mode (s : State) (p : Bool) : (s.skipIf p).mode = s.mode := rfl
@[simp] theorem State.skipIf_params (s : State) (p : Bool) : (s.skipIf p).params = s.params := rfl
@[simp] theorem State.skipIf_result (s : State) (p : Bool) :
    (s.skipIf p).result = StepResult.quiet := rfl
@[simp] theorem State.skipIf_draws (s : State) (p : Bool) : (s.skipIf p).draws = s.draws := rfl
@[simp] theorem State.skipIf_getV (s : State) (p : Bool) (r : Reg) :
    (s.skipIf p).getV r = s.getV r := rfl
@[simp] theorem State.skipIf_readByte (s : State) (p : Bool) (c : Word) :
    (s.skipIf p).readByte c = s.readByte c := rfl
@[simp] theorem State.skipIf_fetch (s : State) (p : Bool) (c : Word) :
    (s.skipIf p).fetch c = s.fetch c := rfl

/-! ## `await` (R104) -/

@[simp] theorem State.await_mem (s : State) (x : Reg) (b : Keys) :
    (s.await x b).mem = s.mem := rfl
@[simp] theorem State.await_v (s : State) (x : Reg) (b : Keys) : (s.await x b).v = s.v := rfl
@[simp] theorem State.await_i (s : State) (x : Reg) (b : Keys) : (s.await x b).i = s.i := rfl
@[simp] theorem State.await_pc (s : State) (x : Reg) (b : Keys) : (s.await x b).pc = s.pc := rfl
@[simp] theorem State.await_sp (s : State) (x : Reg) (b : Keys) : (s.await x b).sp = s.sp := rfl
@[simp] theorem State.await_stack (s : State) (x : Reg) (b : Keys) :
    (s.await x b).stack = s.stack := rfl
@[simp] theorem State.await_dt (s : State) (x : Reg) (b : Keys) : (s.await x b).dt = s.dt := rfl
@[simp] theorem State.await_st (s : State) (x : Reg) (b : Keys) : (s.await x b).st = s.st := rfl
@[simp] theorem State.await_keys (s : State) (x : Reg) (b : Keys) :
    (s.await x b).keys = s.keys := rfl
@[simp] theorem State.await_fb (s : State) (x : Reg) (b : Keys) : (s.await x b).fb = s.fb := rfl
@[simp] theorem State.await_mode (s : State) (x : Reg) (b : Keys) :
    (s.await x b).mode = .awaitingKey x b := rfl
@[simp] theorem State.await_params (s : State) (x : Reg) (b : Keys) :
    (s.await x b).params = s.params := rfl
@[simp] theorem State.await_result (s : State) (x : Reg) (b : Keys) :
    (s.await x b).result = { StepResult.quiet with waiting := true } := rfl
@[simp] theorem State.await_draws (s : State) (x : Reg) (b : Keys) :
    (s.await x b).draws = s.draws := rfl
@[simp] theorem State.await_getV (s : State) (x : Reg) (b : Keys) (r : Reg) :
    (s.await x b).getV r = s.getV r := rfl
@[simp] theorem State.await_readByte (s : State) (x : Reg) (b : Keys) (c : Word) :
    (s.await x b).readByte c = s.readByte c := rfl
@[simp] theorem State.await_fetch (s : State) (x : Reg) (b : Keys) (c : Word) :
    (s.await x b).fetch c = s.fetch c := rfl

/-! ## `report` (R110) -/

@[simp] theorem State.report_mem (s : State) (f : FaultRecord) : (s.report f).mem = s.mem := rfl
@[simp] theorem State.report_v (s : State) (f : FaultRecord) : (s.report f).v = s.v := rfl
@[simp] theorem State.report_i (s : State) (f : FaultRecord) : (s.report f).i = s.i := rfl
@[simp] theorem State.report_pc (s : State) (f : FaultRecord) : (s.report f).pc = s.pc := rfl
@[simp] theorem State.report_sp (s : State) (f : FaultRecord) : (s.report f).sp = s.sp := rfl
@[simp] theorem State.report_stack (s : State) (f : FaultRecord) :
    (s.report f).stack = s.stack := rfl
@[simp] theorem State.report_dt (s : State) (f : FaultRecord) : (s.report f).dt = s.dt := rfl
@[simp] theorem State.report_st (s : State) (f : FaultRecord) : (s.report f).st = s.st := rfl
@[simp] theorem State.report_keys (s : State) (f : FaultRecord) :
    (s.report f).keys = s.keys := rfl
@[simp] theorem State.report_fb (s : State) (f : FaultRecord) : (s.report f).fb = s.fb := rfl
@[simp] theorem State.report_mode (s : State) (f : FaultRecord) :
    (s.report f).mode = s.mode := rfl
@[simp] theorem State.report_params (s : State) (f : FaultRecord) :
    (s.report f).params = s.params := rfl
@[simp] theorem State.report_result (s : State) (f : FaultRecord) :
    (s.report f).result = { StepResult.quiet with fault := some f } := rfl
@[simp] theorem State.report_draws (s : State) (f : FaultRecord) :
    (s.report f).draws = s.draws := rfl
@[simp] theorem State.report_getV (s : State) (f : FaultRecord) (r : Reg) :
    (s.report f).getV r = s.getV r := rfl
@[simp] theorem State.report_readByte (s : State) (f : FaultRecord) (c : Word) :
    (s.report f).readByte c = s.readByte c := rfl
@[simp] theorem State.report_fetch (s : State) (f : FaultRecord) (c : Word) :
    (s.report f).fetch c = s.fetch c := rfl

/-! ## `raise` (R109) -/

@[simp] theorem State.raise_mem (s : State) (k : FaultKind) (op : Word) (w : Option Byte) :
    (s.raise k op w).mem = s.mem := rfl
@[simp] theorem State.raise_v (s : State) (k : FaultKind) (op : Word) (w : Option Byte) :
    (s.raise k op w).v = s.v := rfl
@[simp] theorem State.raise_i (s : State) (k : FaultKind) (op : Word) (w : Option Byte) :
    (s.raise k op w).i = s.i := rfl
@[simp] theorem State.raise_pc (s : State) (k : FaultKind) (op : Word) (w : Option Byte) :
    (s.raise k op w).pc = s.pc := rfl
@[simp] theorem State.raise_sp (s : State) (k : FaultKind) (op : Word) (w : Option Byte) :
    (s.raise k op w).sp = s.sp := rfl
@[simp] theorem State.raise_stack (s : State) (k : FaultKind) (op : Word) (w : Option Byte) :
    (s.raise k op w).stack = s.stack := rfl
@[simp] theorem State.raise_dt (s : State) (k : FaultKind) (op : Word) (w : Option Byte) :
    (s.raise k op w).dt = s.dt := rfl
@[simp] theorem State.raise_st (s : State) (k : FaultKind) (op : Word) (w : Option Byte) :
    (s.raise k op w).st = s.st := rfl
@[simp] theorem State.raise_keys (s : State) (k : FaultKind) (op : Word) (w : Option Byte) :
    (s.raise k op w).keys = s.keys := rfl
@[simp] theorem State.raise_fb (s : State) (k : FaultKind) (op : Word) (w : Option Byte) :
    (s.raise k op w).fb = s.fb := rfl
@[simp] theorem State.raise_mode (s : State) (k : FaultKind) (op : Word) (w : Option Byte) :
    (s.raise k op w).mode = .halted { kind := k, pc := s.pc, op := op, value := w } := rfl
@[simp] theorem State.raise_params (s : State) (k : FaultKind) (op : Word) (w : Option Byte) :
    (s.raise k op w).params = s.params := rfl
@[simp] theorem State.raise_result (s : State) (k : FaultKind) (op : Word) (w : Option Byte) :
    (s.raise k op w).result = { StepResult.quiet with fault := some { kind := k, pc := s.pc, op := op, value := w } } := rfl
@[simp] theorem State.raise_draws (s : State) (k : FaultKind) (op : Word) (w : Option Byte) :
    (s.raise k op w).draws = s.draws := rfl
@[simp] theorem State.raise_getV (s : State) (k : FaultKind) (op : Word) (w : Option Byte) (r : Reg) :
    (s.raise k op w).getV r = s.getV r := rfl
@[simp] theorem State.raise_readByte (s : State) (k : FaultKind) (op : Word) (w : Option Byte) (c : Word) :
    (s.raise k op w).readByte c = s.readByte c := rfl
@[simp] theorem State.raise_fetch (s : State) (k : FaultKind) (op : Word) (w : Option Byte) (c : Word) :
    (s.raise k op w).fetch c = s.fetch c := rfl

/-! ## `loadUpTo` (R93) -/

@[simp] theorem State.loadUpTo_mem (s : State) (x : Reg) : (s.loadUpTo x).mem = s.mem := rfl
@[simp] theorem State.loadUpTo_v (s : State) (x : Reg) :
    (s.loadUpTo x).v = Vector.ofFn (fun j : Reg =>
      if j ≤ x then s.readByte (s.i + BitVec.ofNat 16 j.val) else s.getV j) := rfl
@[simp] theorem State.loadUpTo_i (s : State) (x : Reg) : (s.loadUpTo x).i = s.i := rfl
@[simp] theorem State.loadUpTo_pc (s : State) (x : Reg) : (s.loadUpTo x).pc = s.pc := rfl
@[simp] theorem State.loadUpTo_sp (s : State) (x : Reg) : (s.loadUpTo x).sp = s.sp := rfl
@[simp] theorem State.loadUpTo_stack (s : State) (x : Reg) : (s.loadUpTo x).stack = s.stack := rfl
@[simp] theorem State.loadUpTo_dt (s : State) (x : Reg) : (s.loadUpTo x).dt = s.dt := rfl
@[simp] theorem State.loadUpTo_st (s : State) (x : Reg) : (s.loadUpTo x).st = s.st := rfl
@[simp] theorem State.loadUpTo_keys (s : State) (x : Reg) : (s.loadUpTo x).keys = s.keys := rfl
@[simp] theorem State.loadUpTo_fb (s : State) (x : Reg) : (s.loadUpTo x).fb = s.fb := rfl
@[simp] theorem State.loadUpTo_mode (s : State) (x : Reg) : (s.loadUpTo x).mode = s.mode := rfl
@[simp] theorem State.loadUpTo_params (s : State) (x : Reg) :
    (s.loadUpTo x).params = s.params := rfl
@[simp] theorem State.loadUpTo_result (s : State) (x : Reg) :
    (s.loadUpTo x).result = s.result := rfl
@[simp] theorem State.loadUpTo_draws (s : State) (x : Reg) : (s.loadUpTo x).draws = s.draws := rfl
@[simp] theorem State.loadUpTo_readByte (s : State) (x : Reg) (c : Word) :
    (s.loadUpTo x).readByte c = s.readByte c := rfl
@[simp] theorem State.loadUpTo_fetch (s : State) (x : Reg) (c : Word) :
    (s.loadUpTo x).fetch c = s.fetch c := rfl

/-! ## `random` (R86) -/

@[simp] theorem State.random_mem (s : State) (r : Byte) (x : Reg) (kk : Byte) :
    (s.random r x kk).mem = s.mem := rfl
@[simp] theorem State.random_v (s : State) (r : Byte) (x : Reg) (kk : Byte) :
    (s.random r x kk).v = s.v.set x (r &&& kk) := rfl
@[simp] theorem State.random_i (s : State) (r : Byte) (x : Reg) (kk : Byte) :
    (s.random r x kk).i = s.i := rfl
@[simp] theorem State.random_pc (s : State) (r : Byte) (x : Reg) (kk : Byte) :
    (s.random r x kk).pc = s.pc + 2 := rfl
@[simp] theorem State.random_sp (s : State) (r : Byte) (x : Reg) (kk : Byte) :
    (s.random r x kk).sp = s.sp := rfl
@[simp] theorem State.random_stack (s : State) (r : Byte) (x : Reg) (kk : Byte) :
    (s.random r x kk).stack = s.stack := rfl
@[simp] theorem State.random_dt (s : State) (r : Byte) (x : Reg) (kk : Byte) :
    (s.random r x kk).dt = s.dt := rfl
@[simp] theorem State.random_st (s : State) (r : Byte) (x : Reg) (kk : Byte) :
    (s.random r x kk).st = s.st := rfl
@[simp] theorem State.random_keys (s : State) (r : Byte) (x : Reg) (kk : Byte) :
    (s.random r x kk).keys = s.keys := rfl
@[simp] theorem State.random_fb (s : State) (r : Byte) (x : Reg) (kk : Byte) :
    (s.random r x kk).fb = s.fb := rfl
@[simp] theorem State.random_mode (s : State) (r : Byte) (x : Reg) (kk : Byte) :
    (s.random r x kk).mode = s.mode := rfl
@[simp] theorem State.random_params (s : State) (r : Byte) (x : Reg) (kk : Byte) :
    (s.random r x kk).params = s.params := rfl
@[simp] theorem State.random_result (s : State) (r : Byte) (x : Reg) (kk : Byte) :
    (s.random r x kk).result = StepResult.quiet := rfl
@[simp] theorem State.random_draws (s : State) (r : Byte) (x : Reg) (kk : Byte) :
    (s.random r x kk).draws = s.draws + 1 := rfl
@[simp] theorem State.random_readByte (s : State) (r : Byte) (x : Reg) (kk : Byte) (c : Word) :
    (s.random r x kk).readByte c = s.readByte c := rfl
@[simp] theorem State.random_fetch (s : State) (r : Byte) (x : Reg) (kk : Byte) (c : Word) :
    (s.random r x kk).fetch c = s.fetch c := rfl

/-! ## `setKeys` (R117) -/

@[simp] theorem State.setKeys_mem (s : State) (k : Keys) : (s.setKeys k).mem = s.mem := rfl
@[simp] theorem State.setKeys_v (s : State) (k : Keys) : (s.setKeys k).v = s.v := rfl
@[simp] theorem State.setKeys_i (s : State) (k : Keys) : (s.setKeys k).i = s.i := rfl
@[simp] theorem State.setKeys_pc (s : State) (k : Keys) : (s.setKeys k).pc = s.pc := rfl
@[simp] theorem State.setKeys_sp (s : State) (k : Keys) : (s.setKeys k).sp = s.sp := rfl
@[simp] theorem State.setKeys_stack (s : State) (k : Keys) : (s.setKeys k).stack = s.stack := rfl
@[simp] theorem State.setKeys_dt (s : State) (k : Keys) : (s.setKeys k).dt = s.dt := rfl
@[simp] theorem State.setKeys_st (s : State) (k : Keys) : (s.setKeys k).st = s.st := rfl
@[simp] theorem State.setKeys_keys (s : State) (k : Keys) : (s.setKeys k).keys = k := rfl
@[simp] theorem State.setKeys_fb (s : State) (k : Keys) : (s.setKeys k).fb = s.fb := rfl
@[simp] theorem State.setKeys_mode (s : State) (k : Keys) : (s.setKeys k).mode = s.mode := rfl
@[simp] theorem State.setKeys_params (s : State) (k : Keys) :
    (s.setKeys k).params = s.params := rfl
@[simp] theorem State.setKeys_result (s : State) (k : Keys) :
    (s.setKeys k).result = s.result := rfl
@[simp] theorem State.setKeys_draws (s : State) (k : Keys) : (s.setKeys k).draws = s.draws := rfl
@[simp] theorem State.setKeys_getV (s : State) (k : Keys) (r : Reg) :
    (s.setKeys k).getV r = s.getV r := rfl
@[simp] theorem State.setKeys_readByte (s : State) (k : Keys) (c : Word) :
    (s.setKeys k).readByte c = s.readByte c := rfl
@[simp] theorem State.setKeys_fetch (s : State) (k : Keys) (c : Word) :
    (s.setKeys k).fetch c = s.fetch c := rfl

/-! ## `writeBytes`: only `mem` changes (R36) -/

@[simp] theorem State.writeBytes_v (bs : List Byte) :
    ∀ (s : State) (a : Word), (s.writeBytes a bs).v = s.v := by
  induction bs with
  | nil => intro s a; rfl
  | cons b bs ih => intro s a; exact ih (s.writeByte a b) (a + 1)
@[simp] theorem State.writeBytes_i (bs : List Byte) :
    ∀ (s : State) (a : Word), (s.writeBytes a bs).i = s.i := by
  induction bs with
  | nil => intro s a; rfl
  | cons b bs ih => intro s a; exact ih (s.writeByte a b) (a + 1)
@[simp] theorem State.writeBytes_pc (bs : List Byte) :
    ∀ (s : State) (a : Word), (s.writeBytes a bs).pc = s.pc := by
  induction bs with
  | nil => intro s a; rfl
  | cons b bs ih => intro s a; exact ih (s.writeByte a b) (a + 1)
@[simp] theorem State.writeBytes_sp (bs : List Byte) :
    ∀ (s : State) (a : Word), (s.writeBytes a bs).sp = s.sp := by
  induction bs with
  | nil => intro s a; rfl
  | cons b bs ih => intro s a; exact ih (s.writeByte a b) (a + 1)
@[simp] theorem State.writeBytes_stack (bs : List Byte) :
    ∀ (s : State) (a : Word), (s.writeBytes a bs).stack = s.stack := by
  induction bs with
  | nil => intro s a; rfl
  | cons b bs ih => intro s a; exact ih (s.writeByte a b) (a + 1)
@[simp] theorem State.writeBytes_dt (bs : List Byte) :
    ∀ (s : State) (a : Word), (s.writeBytes a bs).dt = s.dt := by
  induction bs with
  | nil => intro s a; rfl
  | cons b bs ih => intro s a; exact ih (s.writeByte a b) (a + 1)
@[simp] theorem State.writeBytes_st (bs : List Byte) :
    ∀ (s : State) (a : Word), (s.writeBytes a bs).st = s.st := by
  induction bs with
  | nil => intro s a; rfl
  | cons b bs ih => intro s a; exact ih (s.writeByte a b) (a + 1)
@[simp] theorem State.writeBytes_keys (bs : List Byte) :
    ∀ (s : State) (a : Word), (s.writeBytes a bs).keys = s.keys := by
  induction bs with
  | nil => intro s a; rfl
  | cons b bs ih => intro s a; exact ih (s.writeByte a b) (a + 1)
@[simp] theorem State.writeBytes_fb (bs : List Byte) :
    ∀ (s : State) (a : Word), (s.writeBytes a bs).fb = s.fb := by
  induction bs with
  | nil => intro s a; rfl
  | cons b bs ih => intro s a; exact ih (s.writeByte a b) (a + 1)
@[simp] theorem State.writeBytes_mode (bs : List Byte) :
    ∀ (s : State) (a : Word), (s.writeBytes a bs).mode = s.mode := by
  induction bs with
  | nil => intro s a; rfl
  | cons b bs ih => intro s a; exact ih (s.writeByte a b) (a + 1)
@[simp] theorem State.writeBytes_params (bs : List Byte) :
    ∀ (s : State) (a : Word), (s.writeBytes a bs).params = s.params := by
  induction bs with
  | nil => intro s a; rfl
  | cons b bs ih => intro s a; exact ih (s.writeByte a b) (a + 1)
@[simp] theorem State.writeBytes_result (bs : List Byte) :
    ∀ (s : State) (a : Word), (s.writeBytes a bs).result = s.result := by
  induction bs with
  | nil => intro s a; rfl
  | cons b bs ih => intro s a; exact ih (s.writeByte a b) (a + 1)
@[simp] theorem State.writeBytes_draws (bs : List Byte) :
    ∀ (s : State) (a : Word), (s.writeBytes a bs).draws = s.draws := by
  induction bs with
  | nil => intro s a; rfl
  | cons b bs ih => intro s a; exact ih (s.writeByte a b) (a + 1)
@[simp] theorem State.writeBytes_getV (bs : List Byte) (s : State) (a : Word) (r : Reg) :
    (s.writeBytes a bs).getV r = s.getV r := by simp [State.getV]

/-! ## `writeResultAndFlag`: only `v` changes (R76) -/

@[simp] theorem State.writeResultAndFlag_mem (s : State) (x : Reg) (r f : Byte) :
    (s.writeResultAndFlag x r f).mem = s.mem := by
  unfold State.writeResultAndFlag; split <;> rfl
@[simp] theorem State.writeResultAndFlag_i (s : State) (x : Reg) (r f : Byte) :
    (s.writeResultAndFlag x r f).i = s.i := by
  unfold State.writeResultAndFlag; split <;> rfl
@[simp] theorem State.writeResultAndFlag_pc (s : State) (x : Reg) (r f : Byte) :
    (s.writeResultAndFlag x r f).pc = s.pc := by
  unfold State.writeResultAndFlag; split <;> rfl
@[simp] theorem State.writeResultAndFlag_sp (s : State) (x : Reg) (r f : Byte) :
    (s.writeResultAndFlag x r f).sp = s.sp := by
  unfold State.writeResultAndFlag; split <;> rfl
@[simp] theorem State.writeResultAndFlag_stack (s : State) (x : Reg) (r f : Byte) :
    (s.writeResultAndFlag x r f).stack = s.stack := by
  unfold State.writeResultAndFlag; split <;> rfl
@[simp] theorem State.writeResultAndFlag_dt (s : State) (x : Reg) (r f : Byte) :
    (s.writeResultAndFlag x r f).dt = s.dt := by
  unfold State.writeResultAndFlag; split <;> rfl
@[simp] theorem State.writeResultAndFlag_st (s : State) (x : Reg) (r f : Byte) :
    (s.writeResultAndFlag x r f).st = s.st := by
  unfold State.writeResultAndFlag; split <;> rfl
@[simp] theorem State.writeResultAndFlag_keys (s : State) (x : Reg) (r f : Byte) :
    (s.writeResultAndFlag x r f).keys = s.keys := by
  unfold State.writeResultAndFlag; split <;> rfl
@[simp] theorem State.writeResultAndFlag_fb (s : State) (x : Reg) (r f : Byte) :
    (s.writeResultAndFlag x r f).fb = s.fb := by
  unfold State.writeResultAndFlag; split <;> rfl
@[simp] theorem State.writeResultAndFlag_mode (s : State) (x : Reg) (r f : Byte) :
    (s.writeResultAndFlag x r f).mode = s.mode := by
  unfold State.writeResultAndFlag; split <;> rfl
@[simp] theorem State.writeResultAndFlag_params (s : State) (x : Reg) (r f : Byte) :
    (s.writeResultAndFlag x r f).params = s.params := by
  unfold State.writeResultAndFlag; split <;> rfl
@[simp] theorem State.writeResultAndFlag_result (s : State) (x : Reg) (r f : Byte) :
    (s.writeResultAndFlag x r f).result = s.result := by
  unfold State.writeResultAndFlag; split <;> rfl
@[simp] theorem State.writeResultAndFlag_draws (s : State) (x : Reg) (r f : Byte) :
    (s.writeResultAndFlag x r f).draws = s.draws := by
  unfold State.writeResultAndFlag; split <;> rfl
@[simp] theorem State.writeResultAndFlag_readByte (s : State) (x : Reg) (r f : Byte) (c : Word) :
    (s.writeResultAndFlag x r f).readByte c = s.readByte c := by simp [State.readByte]

end Sys2Proof.Machine
end

