-- ==== Sys2Proof/Laws/Ops.lean ====
section
/-! SUPPORT. For each shared operation, one lemma that says what it does: registers, memory, the call
stack, the key wait. Later proofs cite these and do not unfold the operations. -/

namespace Sys2Proof.Machine

/-! ## Registers (R12, R76) -/

theorem State.getV_setV (s : State) (x r : Reg) (b : Byte) :
    (s.setV x b).getV r = if r = x then b else s.getV r := by
  unfold State.getV State.setV
  simp only [Fin.getElem_fin, Vector.getElem_set]
  by_cases h : r = x
  · simp [h]
  · have : ¬ x.val = r.val := fun e => h (Fin.ext e.symm)
    simp [h, this]

@[simp] theorem State.getV_setV_self (s : State) (x : Reg) (b : Byte) :
    (s.setV x b).getV x = b := by simp [State.getV_setV]

theorem State.getV_setV_ne (s : State) {x r : Reg} (b : Byte) (h : r ≠ x) :
    (s.setV x b).getV r = s.getV r := by simp [State.getV_setV, h]

/-- The two writes of `WriteResultAndFlag` (R76), for every destination. -/
theorem State.getV_writeResultAndFlag (s : State) (x q : Reg) (r f : Byte) :
    (s.writeResultAndFlag x r f).getV q =
      if q = x ∧ (x ≠ vf ∨ s.params.vfDest = .result) then r
      else if q = vf then f
      else s.getV q := by
  unfold State.writeResultAndFlag
  cases hd : s.params.vfDest <;> by_cases hq : q = x <;> by_cases hv : q = vf <;>
    simp_all [State.getV_setV]

/-- Loading V0 to Vx (R93). -/
theorem State.getV_loadUpTo (s : State) (x r : Reg) :
    (s.loadUpTo x).getV r =
      if r ≤ x then s.readByte (s.i + BitVec.ofNat 16 r.val) else s.getV r := by
  unfold State.loadUpTo State.getV
  simp

/-! ## Addresses (R30) -/

theorem effAddr_eq (a : Word) : effAddr a = a.toNat % 4096 := by
  unfold effAddr
  rw [BitVec.toNat_and]
  exact Nat.and_two_pow_sub_one_eq_mod a.toNat 12

theorem effAddr_lt (a : Word) : effAddr a < 4096 := by
  rw [effAddr_eq]; omega

theorem effAddr_add (a : Word) (j : Nat) :
    effAddr (a + BitVec.ofNat 16 j) = (a.toNat + j) % 4096 := by
  rw [effAddr_eq, BitVec.toNat_add, BitVec.toNat_ofNat]
  omega

/-- Distances below 4096 give distinct cells. -/
theorem effAddr_add_inj (a : Word) {j k : Nat} (hj : j < 4096) (hk : k < 4096)
    (h : effAddr (a + BitVec.ofNat 16 j) = effAddr (a + BitVec.ofNat 16 k)) : j = k := by
  rw [effAddr_add, effAddr_add] at h
  omega

/-! ## Memory (R31, R32, R36) -/

theorem State.readByte_writeByte (s : State) (a c : Word) (b : Byte) :
    (s.writeByte a b).readByte c = if effAddr c = effAddr a then b else s.readByte c :=
  Memory.read_write _ _ _ _ _

theorem add_ofNat_succ (a : Word) (j : Nat) :
    a + 1 + BitVec.ofNat 16 j = a + BitVec.ofNat 16 (j + 1) := by
  rw [Nat.add_comm j 1, BitVec.ofNat_add, BitVec.add_assoc]
  rfl

/-- Bytes outside a store keep their values (R32, R36). -/
theorem State.readByte_writeBytes_outside (bs : List Byte) :
    ∀ (s : State) (a c : Word), OutsideStore a bs.length c →
      (s.writeBytes a bs).readByte c = s.readByte c := by
  induction bs with
  | nil => intro s a c _; rfl
  | cons b bs ih =>
    intro s a c h
    have h0 : effAddr c ≠ effAddr a := fun e => h 0 (by simp) (by simpa using e.symm)
    have hs : OutsideStore (a + 1) bs.length c := by
      intro j hj
      rw [add_ofNat_succ]
      exact h (j + 1) (by simpa using hj)
    show ((s.writeByte a b).writeBytes (a + 1) bs).readByte c = _
    rw [ih _ _ _ hs, State.readByte_writeByte, if_neg h0]

/-- Each stored byte reads back: at most 4096 bytes, so no cell is stored twice (R36). -/
theorem State.readByte_writeBytes (bs : List Byte) :
    ∀ (s : State) (a : Word), bs.length ≤ 4096 → ∀ (j : Nat) (hj : j < bs.length),
      (s.writeBytes a bs).readByte (a + BitVec.ofNat 16 j) = bs[j] := by
  induction bs with
  | nil => intro s a _ j hj; exact absurd hj (by simp)
  | cons b bs ih =>
    intro s a hl j hj
    have hl' : bs.length + 1 ≤ 4096 := by simpa using hl
    show ((s.writeByte a b).writeBytes (a + 1) bs).readByte _ = _
    cases j with
    | zero =>
      rw [State.readByte_writeBytes_outside bs, State.readByte_writeByte, if_pos]
      · rfl
      · simp
      · intro k hk e
        rw [add_ofNat_succ] at e
        have := effAddr_add_inj a (by omega) (by omega) e
        omega
    | succ j =>
      have h := ih (s.writeByte a b) (a + 1) (by omega) j (by simpa using hj)
      rw [add_ofNat_succ] at h
      rw [h]
      rfl

theorem State.readBytes_length (s : State) (n : Nat) :
    ∀ a : Word, (s.readBytes a n).length = n := by
  induction n with
  | zero => intro a; rfl
  | succ n ih => intro a; simp [State.readBytes, ih]

theorem State.readBytes_getElem (s : State) (n : Nat) :
    ∀ (a : Word) (j : Nat) (hj : j < (s.readBytes a n).length),
      (s.readBytes a n)[j] = s.readByte (a + BitVec.ofNat 16 j) := by
  induction n with
  | zero => intro a j hj; exact absurd hj (by simp [State.readBytes])
  | succ n ih =>
    intro a j hj
    cases j with
    | zero => simp [State.readBytes]
    | succ j =>
      rw [← add_ofNat_succ]
      exact ih (a + 1) j (by simpa [State.readBytes] using hj)

/-- A fetch as a number (R34). -/
theorem State.toNat_fetch (s : State) (pc : Word) :
    (s.fetch pc).toNat = (s.readByte pc).toNat * 256 + (s.readByte (pc + 1)).toNat :=
  toNat_wordOfBytes _ _

/-! ## The canonical form -/

theorem State.MemoryCanonical.writeByte {s : State} (h : s.MemoryCanonical) (a : Word)
    (b : Byte) : (s.writeByte a b).MemoryCanonical :=
  Memory.wf_write _ _ _ _ (effAddr_lt a) h

theorem State.MemoryCanonical.writeBytes (bs : List Byte) :
    ∀ {s : State}, s.MemoryCanonical → ∀ a : Word, (s.writeBytes a bs).MemoryCanonical := by
  induction bs with
  | nil => intro s h a; exact h
  | cons b bs ih => intro s h a; exact ih (h.writeByte a b) (a + 1)

/-! ## The call stack (R18, R19) -/

/-- What `push` does. -/
theorem State.push_eq_some {s t : State} {a : Word} (h : s.push a = some t) :
    ∃ hs : s.sp.val < 16,
      t = { s with stack := s.stack.set s.sp.val a, sp := ⟨s.sp.val + 1, by omega⟩ } := by
  unfold State.push at h
  split at h
  · rename_i hs; exact ⟨hs, by simpa using h.symm⟩
  · cases h

theorem State.push_eq_none {s : State} {a : Word} : s.push a = none ↔ s.sp.val = 16 := by
  unfold State.push
  split <;> simp <;> omega

/-- What `pop` does. -/
theorem State.pop_eq_some {s t : State} {a : Word} (h : s.pop = some (a, t)) :
    ∃ _ : s.sp.val ≠ 0,
      a = s.stack[s.sp.val - 1] ∧ t = { s with sp := ⟨s.sp.val - 1, by omega⟩ } := by
  unfold State.pop at h
  split at h
  · cases h
  · rename_i hs
    simp only [Option.some.injEq, Prod.mk.injEq] at h
    exact ⟨hs, h.1.symm, h.2.symm⟩

theorem State.pop_eq_none {s : State} : s.pop = none ↔ s.sp.val = 0 := by
  unfold State.pop
  split <;> simp [*]

/-! ## Keys (R101, R104) -/

theorem keyOfByte_eq_some {k : Byte} {q : Key} : keyOfByte k = some q ↔ q.val = k.toNat := by
  unfold keyOfByte
  split
  · simp [Fin.ext_iff, eq_comm]
  · simp; omega

theorem keyOfByte_eq_none {k : Byte} : keyOfByte k = none ↔ k.toNat > 0xF := by
  unfold keyOfByte
  split <;> simp <;> omega

/-- The key a poll takes qualifies, and no lower one does (R104). -/
theorem lowestKey_eq_some {p : KeyWait} {now base : Keys} {k : Key}
    (h : lowestKey p now base = some k) :
    keyQualifies p now base k = true ∧ ∀ j, j < k → keyQualifies p now base j = false := by
  obtain ⟨hk, as, bs, hl, hn⟩ := List.find?_eq_some_iff_append.mp h
  refine ⟨hk, fun j hj => ?_⟩
  have hpw : (List.finRange 16).Pairwise (· < ·) := by decide
  rw [hl] at hpw
  have hj' : j ∈ as := by
    have hm : j ∈ List.finRange 16 := List.mem_finRange j
    rw [hl] at hm
    rcases List.mem_append.mp hm with hm | hm
    · exact hm
    · rcases List.mem_cons.mp hm with rfl | hm
      · exact absurd hj (lt_irrefl _)
      · have := (List.pairwise_cons.mp (List.pairwise_append.mp hpw).2.1).1 j hm
        exact absurd hj (not_lt_of_gt this)
  simpa using hn j hj'

theorem lowestKey_eq_none {p : KeyWait} {now base : Keys} :
    lowestKey p now base = none ↔ ∀ k, keyQualifies p now base k = false := by
  simp [lowestKey, List.find?_eq_none]

/-- Everything a poll can do (R104). -/
theorem State.pollKeyWait_cases (s : State) (x : Reg) (base : Keys) :
    (lowestKey s.params.keyWait s.keys base = none ∧ s.pollKeyWait x base = s.await x s.keys) ∨
    ∃ k, lowestKey s.params.keyWait s.keys base = some k ∧
      s.pollKeyWait x base = { (s.setV x (byteOfKey k)).advance with mode := .running } := by
  unfold State.pollKeyWait
  cases h : lowestKey s.params.keyWait s.keys base with
  | none => exact .inl ⟨rfl, rfl⟩
  | some k => exact .inr ⟨k, rfl, rfl⟩

end Sys2Proof.Machine
end

