-- ==== Sys2Proof/Laws/Display.lean ====
section
/-! SUPPORT. What drawing does, pixel by pixel (spec 44_display.md R95, R97 to R99): which pixels a
sprite's 1 bits land on, that they are distinct, and what toggling a list of distinct pixels
leaves. -/

namespace Sys2Proof.Machine

/-- One pixel of a screen. -/
def Screen.at (fb : Screen) (q : Fin 32 × Fin 64) : Bool := fb[q.1][q.2]

/-- Toggling one pixel inverts it and no other (R98). -/
theorem at_togglePixel (a : Screen × Bool) (q r : Fin 32 × Fin 64) :
    (togglePixel a q).1.at r = if r = q then !(a.1.at q) else a.1.at r := by
  obtain ⟨q1, q2⟩ := q
  obtain ⟨r1, r2⟩ := r
  unfold Screen.at togglePixel
  simp only [Fin.getElem_fin, Vector.getElem_set, Prod.mk.injEq, Fin.ext_iff]
  by_cases h1 : q1.val = r1.val
  · obtain rfl : q1 = r1 := Fin.ext h1
    by_cases h2 : q2.val = r2.val
    · simp [h2]
    · simp [h2, Ne.symm h2]
  · simp [h1, Ne.symm h1]

theorem togglePixel_hit (a : Screen × Bool) (q : Fin 32 × Fin 64) :
    (togglePixel a q).2 = (a.2 || a.1.at q) := rfl

/-- Toggling distinct pixels inverts exactly those (R98). -/
theorem at_foldl_togglePixel (qs : List (Fin 32 × Fin 64)) :
    ∀ a : Screen × Bool, qs.Nodup → ∀ r,
      (qs.foldl togglePixel a).1.at r = if r ∈ qs then !(a.1.at r) else a.1.at r := by
  induction qs with
  | nil => intro a _ r; simp
  | cons q qs ih =>
    intro a hn r
    obtain ⟨hq, hn'⟩ := List.nodup_cons.mp hn
    rw [List.foldl_cons, ih _ hn', at_togglePixel]
    by_cases hr : r = q
    · subst hr; simp [hq]
    · simp [hr]

/-- Toggling distinct pixels collides exactly when one of them was on (R98). -/
theorem foldl_togglePixel_hit (qs : List (Fin 32 × Fin 64)) :
    ∀ a : Screen × Bool, qs.Nodup →
      ((qs.foldl togglePixel a).2 = true ↔ a.2 = true ∨ ∃ r ∈ qs, a.1.at r = true) := by
  induction qs with
  | nil => intro a _; simp
  | cons q qs ih =>
    intro a hn
    obtain ⟨hq, hn'⟩ := List.nodup_cons.mp hn
    have hne : ∀ r ∈ qs, (togglePixel a q).1.at r = a.1.at r := fun r hr => by
      rw [at_togglePixel, if_neg]
      rintro rfl
      exact hq hr
    rw [List.foldl_cons, ih _ hn', togglePixel_hit, List.exists_mem_cons_iff, Bool.or_eq_true,
      or_assoc]
    exact or_congr_right (or_congr_right (exists_congr fun r =>
      and_congr_right fun hr => by rw [hne r hr]))

/-- Where a sprite pixel lands (R97). -/
theorem placePixel_eq_some {p : DrawEdge} {py px : Nat} {q : Fin 32 × Fin 64} :
    placePixel p py px = some q ↔
      (match p with
       | .wrap => py % 32 = q.1.val ∧ px % 64 = q.2.val
       | .clip => py = q.1.val ∧ px = q.2.val) := by
  obtain ⟨q1, q2⟩ := q
  unfold placePixel
  cases p
  · simp [Fin.ext_iff]
  · simp only
    split
    · simp [Fin.ext_iff]
    · simp; omega

/-- The pixels of one sprite row (R95). -/
theorem mem_rowPixels {p : DrawEdge} {py px0 : Nat} {row : Byte} {q : Fin 32 × Fin 64} :
    q ∈ rowPixels p py px0 row ↔
      ∃ c, c < 8 ∧ row.getLsbD (7 - c) = true ∧ placePixel p py (px0 + c) = some q := by
  unfold rowPixels
  rw [List.mem_filterMap]
  constructor
  · rintro ⟨c, hc, h⟩
    split at h
    · exact ⟨c, List.mem_range.mp hc, by assumption, h⟩
    · cases h
  · rintro ⟨c, hc, h1, h2⟩
    exact ⟨c, List.mem_range.mpr hc, by simp [h1, h2]⟩

/-- The pixels of a sprite (R95, R99). -/
theorem mem_spritePixels (p : DrawEdge) (px0 : Nat) (rows : List Byte) :
    ∀ (py : Nat) (q : Fin 32 × Fin 64), q ∈ spritePixels p py px0 rows ↔
      ∃ r, ∃ h : r < rows.length, ∃ c, c < 8 ∧ (rows[r]).getLsbD (7 - c) = true ∧
        placePixel p (py + r) (px0 + c) = some q := by
  induction rows with
  | nil => intro py q; simp [spritePixels]
  | cons row rows ih =>
    intro py q
    rw [spritePixels, List.mem_append, mem_rowPixels, ih]
    constructor
    · rintro (⟨c, hc, h1, h2⟩ | ⟨r, hr, c, hc, h1, h2⟩)
      · exact ⟨0, by simp, c, hc, h1, h2⟩
      · refine ⟨r + 1, by simpa using hr, c, hc, h1, ?_⟩
        rw [← h2]; congr 1; omega
    · rintro ⟨r, hr, c, hc, h1, h2⟩
      cases r with
      | zero => exact .inl ⟨c, hc, h1, h2⟩
      | succ r =>
        refine .inr ⟨r, by simpa using hr, c, hc, h1, ?_⟩
        rw [← h2]; congr 1; omega

/-- A partial function that never answers the same twice gives no repeats. -/
theorem nodup_filterMap_of_inj {α β : Type} (f : α → Option β) (l : List α) (hl : l.Nodup)
    (h : ∀ a ∈ l, ∀ b ∈ l, ∀ q, f a = some q → f b = some q → a = b) :
    (l.filterMap f).Nodup := by
  induction l with
  | nil => simp
  | cons a l ih =>
    obtain ⟨ha, hl'⟩ := List.nodup_cons.mp hl
    have ih' := ih hl' fun x hx y hy =>
      h x (List.mem_cons_of_mem _ hx) y (List.mem_cons_of_mem _ hy)
    rw [List.filterMap_cons]
    split
    · exact ih'
    · rename_i q hq
      refine List.nodup_cons.mpr ⟨fun hm => ?_, ih'⟩
      obtain ⟨b, hb, hbq⟩ := List.mem_filterMap.mp hm
      exact ha (h a (by simp) b (List.mem_cons_of_mem _ hb) q hq hbq ▸ hb)

theorem rowPixels_nodup (p : DrawEdge) (py px0 : Nat) (row : Byte) :
    (rowPixels p py px0 row).Nodup := by
  apply nodup_filterMap_of_inj _ _ List.nodup_range
  intro a ha b hb q h1 h2
  rw [List.mem_range] at ha hb
  split at h1 <;> [skip; cases h1]
  split at h2 <;> [skip; cases h2]
  rw [placePixel_eq_some] at h1 h2
  cases p <;> simp only at h1 h2 <;> omega

/-- At most 32 rows of 8 bits land on distinct pixels, wrapped or clipped (R97). -/
theorem spritePixels_nodup (p : DrawEdge) (px0 : Nat) (rows : List Byte) :
    ∀ py : Nat, rows.length ≤ 32 → (spritePixels p py px0 rows).Nodup := by
  induction rows with
  | nil => intro py _; simp [spritePixels]
  | cons row rows ih =>
    intro py hl
    have hl' : rows.length + 1 ≤ 32 := by simpa using hl
    rw [spritePixels]
    refine List.nodup_append'.mpr ⟨rowPixels_nodup _ _ _ _, ih _ (by omega), ?_⟩
    intro q h1 h2
    rw [mem_rowPixels] at h1
    rw [mem_spritePixels] at h2
    obtain ⟨c, hc, _, h1⟩ := h1
    obtain ⟨r, hr, c', hc', _, h2⟩ := h2
    rw [placePixel_eq_some] at h1 h2
    cases p <;> simp only at h1 h2 <;> omega

/-- The list Dxyn toggles holds exactly the pixels `SpriteLights` names. -/
theorem mem_spritePixels_iff_lights (s : State) (x y : Reg) (n : Nibble)
    (q : Fin 32 × Fin 64) :
    q ∈ spritePixels s.params.drawEdge (s.getV y).toNat (s.getV x).toNat
        (s.readBytes s.i n.toNat) ↔ SpriteLights s x y n q.1 q.2 := by
  rw [mem_spritePixels]
  unfold SpriteLights
  constructor
  · rintro ⟨r, hr, c, hc, h1, h2⟩
    rw [State.readBytes_getElem] at h1
    rw [State.readBytes_length] at hr
    exact ⟨r, c, hr, hc, h1, placePixel_eq_some.mp h2⟩
  · rintro ⟨r, c, hr, hc, h1, h2⟩
    refine ⟨r, by rwa [State.readBytes_length], c, hc, ?_, placePixel_eq_some.mpr h2⟩
    rwa [State.readBytes_getElem]

end Sys2Proof.Machine
end

