-- ==== Sys2Proof/Laws/PerInstr.lean ====
section
/-! SUPPORT. Statements about every instruction as syntax, one lemma per constructor. The family
`FixedBits`: the word of an instruction carries the "match" of its row of opcode_table.json under
the row's "mask" (spec 30_encoding.md R47, R48). -/

namespace Sys2Proof.Laws

/-- The encoded word has the row's fixed bits. -/
def FixedBits.Statement (i : Instr) : Prop := encode i &&& i.fixedMask = i.fixedBits

theorem append_and {n m : Nat} (a c : BitVec n) (b d : BitVec m) :
    (a ++ b) &&& (c ++ d) = (a &&& c) ++ (b &&& d) := by
  ext k hk
  simp only [BitVec.getElem_and, BitVec.getElem_append]
  split <;> rfl

theorem nibble_and_ones (a : Nibble) : a &&& 0xF = a := by revert a; decide

theorem byte_and_ones (a : Byte) : a &&& 0xFF = a := BitVec.and_allOnes

theorem wordNnn_and (op : Nibble) (nnn : Addr) :
    wordNnn op nnn &&& 0xF000 = wordNnn op 0 :=
  (append_and op 0xF nnn 0).trans
    (congrArg₂ (fun (a : Nibble) (b : Addr) => (a ++ b : Word)) (nibble_and_ones op)
      BitVec.and_zero)

/-- A word of three parts under a mask of three parts. -/
theorem append_and₃ {n m k : Nat} (a a' : BitVec n) (b b' : BitVec m) (c c' : BitVec k) :
    (a ++ b ++ c) &&& (a' ++ b' ++ c') = (a &&& a') ++ (b &&& b') ++ (c &&& c') := by
  rw [append_and, append_and]

/-- A word of four parts under a mask of four parts. -/
theorem append_and₄ {n m k l : Nat} (a a' : BitVec n) (b b' : BitVec m) (c c' : BitVec k)
    (d d' : BitVec l) :
    (a ++ b ++ c ++ d) &&& (a' ++ b' ++ c' ++ d') =
      (a &&& a') ++ (b &&& b') ++ (c &&& c') ++ (d &&& d') := by
  rw [append_and, append_and₃]

theorem wordXKk_and (op : Nibble) (x : Reg) (kk : Byte) :
    wordXKk op x kk &&& 0xF0FF = wordXKk op 0 kk := by
  have h := append_and₃ op 0xF (BitVec.ofFin x : Nibble) 0x0 kk 0xFF
  rw [nibble_and_ones, byte_and_ones, show (BitVec.ofFin x : Nibble) &&& 0x0 = 0x0 from
    BitVec.and_zero] at h
  exact h

theorem wordXKk_and_op (op : Nibble) (x : Reg) (kk : Byte) :
    wordXKk op x kk &&& 0xF000 = wordXKk op 0 0 := by
  have h := append_and₃ op 0xF (BitVec.ofFin x : Nibble) 0x0 kk 0x00
  rw [nibble_and_ones, show (BitVec.ofFin x : Nibble) &&& 0x0 = 0x0 from BitVec.and_zero,
    show kk &&& 0x00 = 0x00 from BitVec.and_zero] at h
  exact h

theorem wordXyN_and (op : Nibble) (x y : Reg) (n : Nibble) :
    wordXyN op x y n &&& 0xF00F = wordXyN op 0 0 n := by
  have h := append_and₄ op 0xF (BitVec.ofFin x : Nibble) 0x0
    (BitVec.ofFin y : Nibble) 0x0 n 0xF
  rw [nibble_and_ones, nibble_and_ones,
    show (BitVec.ofFin x : Nibble) &&& 0x0 = 0x0 from BitVec.and_zero,
    show (BitVec.ofFin y : Nibble) &&& 0x0 = 0x0 from BitVec.and_zero] at h
  exact h

theorem wordXyN_and_op (op : Nibble) (x y : Reg) (n : Nibble) :
    wordXyN op x y n &&& 0xF000 = wordXyN op 0 0 0 := by
  have h := append_and₄ op 0xF (BitVec.ofFin x : Nibble) 0x0
    (BitVec.ofFin y : Nibble) 0x0 n 0x0
  rw [nibble_and_ones,
    show (BitVec.ofFin x : Nibble) &&& 0x0 = 0x0 from BitVec.and_zero,
    show (BitVec.ofFin y : Nibble) &&& 0x0 = 0x0 from BitVec.and_zero,
    show n &&& 0x0 = 0x0 from BitVec.and_zero] at h
  exact h

theorem FixedBits.cls : FixedBits.Statement .cls := rfl
theorem FixedBits.ret : FixedBits.Statement .ret := rfl
theorem FixedBits.jp (nnn : Addr) : FixedBits.Statement (.jp nnn) := wordNnn_and 0x1 nnn
theorem FixedBits.call (nnn : Addr) : FixedBits.Statement (.call nnn) := wordNnn_and 0x2 nnn
theorem FixedBits.seLit (x : Reg) (kk : Byte) : FixedBits.Statement (.seLit x kk) :=
  wordXKk_and_op 0x3 x kk
theorem FixedBits.sneLit (x : Reg) (kk : Byte) : FixedBits.Statement (.sneLit x kk) :=
  wordXKk_and_op 0x4 x kk
theorem FixedBits.seReg (x y : Reg) : FixedBits.Statement (.seReg x y) := wordXyN_and 0x5 x y 0x0
theorem FixedBits.ldLit (x : Reg) (kk : Byte) : FixedBits.Statement (.ldLit x kk) :=
  wordXKk_and_op 0x6 x kk
theorem FixedBits.addLit (x : Reg) (kk : Byte) : FixedBits.Statement (.addLit x kk) :=
  wordXKk_and_op 0x7 x kk
theorem FixedBits.ldReg (x y : Reg) : FixedBits.Statement (.ldReg x y) := wordXyN_and 0x8 x y 0x0
theorem FixedBits.orReg (x y : Reg) : FixedBits.Statement (.orReg x y) := wordXyN_and 0x8 x y 0x1
theorem FixedBits.andReg (x y : Reg) : FixedBits.Statement (.andReg x y) :=
  wordXyN_and 0x8 x y 0x2
theorem FixedBits.xorReg (x y : Reg) : FixedBits.Statement (.xorReg x y) :=
  wordXyN_and 0x8 x y 0x3
theorem FixedBits.addReg (x y : Reg) : FixedBits.Statement (.addReg x y) :=
  wordXyN_and 0x8 x y 0x4
theorem FixedBits.subReg (x y : Reg) : FixedBits.Statement (.subReg x y) :=
  wordXyN_and 0x8 x y 0x5
theorem FixedBits.shr (x y : Reg) : FixedBits.Statement (.shr x y) := wordXyN_and 0x8 x y 0x6
theorem FixedBits.sneReg (x y : Reg) : FixedBits.Statement (.sneReg x y) :=
  wordXyN_and 0x9 x y 0x0
theorem FixedBits.ldI (nnn : Addr) : FixedBits.Statement (.ldI nnn) := wordNnn_and 0xA nnn
theorem FixedBits.jpV0 (nnn : Addr) : FixedBits.Statement (.jpV0 nnn) := wordNnn_and 0xB nnn
theorem FixedBits.rnd (x : Reg) (kk : Byte) : FixedBits.Statement (.rnd x kk) :=
  wordXKk_and_op 0xC x kk
theorem FixedBits.drw (x y : Reg) (n : Nibble) : FixedBits.Statement (.drw x y n) :=
  wordXyN_and_op 0xD x y n
theorem FixedBits.skp (x : Reg) : FixedBits.Statement (.skp x) := wordXKk_and 0xE x 0x9E
theorem FixedBits.sknp (x : Reg) : FixedBits.Statement (.sknp x) := wordXKk_and 0xE x 0xA1
theorem FixedBits.ldVxDt (x : Reg) : FixedBits.Statement (.ldVxDt x) := wordXKk_and 0xF x 0x07
theorem FixedBits.ldVxKey (x : Reg) : FixedBits.Statement (.ldVxKey x) := wordXKk_and 0xF x 0x0A
theorem FixedBits.ldDtVx (x : Reg) : FixedBits.Statement (.ldDtVx x) := wordXKk_and 0xF x 0x15
theorem FixedBits.ldStVx (x : Reg) : FixedBits.Statement (.ldStVx x) := wordXKk_and 0xF x 0x18
theorem FixedBits.addI (x : Reg) : FixedBits.Statement (.addI x) := wordXKk_and 0xF x 0x1E
theorem FixedBits.ldF (x : Reg) : FixedBits.Statement (.ldF x) := wordXKk_and 0xF x 0x29
theorem FixedBits.ldB (x : Reg) : FixedBits.Statement (.ldB x) := wordXKk_and 0xF x 0x33
theorem FixedBits.storeRegs (x : Reg) : FixedBits.Statement (.storeRegs x) :=
  wordXKk_and 0xF x 0x55
theorem FixedBits.loadRegs (x : Reg) : FixedBits.Statement (.loadRegs x) :=
  wordXKk_and 0xF x 0x65

end Sys2Proof.Laws
end

