-- ==== Sys2Proof/Laws/Step.lean ====
section
/-! SUPPORT. Once and for all: what a step can do (spec 40_engine_cycle.md R55), and how an instruction
ends, completed or faulted (R61, 60_exceptions.md R109). -/

namespace Sys2Proof.Machine

/-! ## The step, by mode -/

theorem step_halted {s : State} {f : FaultRecord} (h : s.mode = .halted f) :
    step s = .next (s.report f) := by simp [step, h]

theorem step_awaiting {s : State} {x : Reg} {b : Keys} (h : s.mode = .awaitingKey x b) :
    step s = .next (s.pollKeyWait x b) := by simp [step, h]

theorem step_unknown {s : State} (h : s.mode = .running)
    (hd : decode s.params.orXor (s.fetch s.pc) = none) :
    step s = .next (s.raise .unknownOpcode (s.fetch s.pc) none) := by simp [step, h, hd]

/-- Everything a step that answers a next state can have done. -/
theorem step_cases {s t : State} (h : step s = .next t) :
    (∃ f, s.mode = .halted f ∧ t = s.report f) ∨
    (∃ x b, s.mode = .awaitingKey x b ∧ t = s.pollKeyWait x b) ∨
    (s.mode = .running ∧ decode s.params.orXor (s.fetch s.pc) = none ∧
      t = s.raise .unknownOpcode (s.fetch s.pc) none) ∨
    ∃ i, s.mode = .running ∧ decode s.params.orXor (s.fetch s.pc) = some i ∧
      exec i s = .next t := by
  unfold step at h
  split at h
  · rename_i f hf; cases h; exact .inl ⟨f, hf, rfl⟩
  · rename_i x b hf; cases h; exact .inr (.inl ⟨x, b, hf, rfl⟩)
  · rename_i hm
    split at h
    · rename_i hd; cases h; exact .inr (.inr (.inl ⟨hm, hd, rfl⟩))
    · rename_i i hd; exact .inr (.inr (.inr ⟨i, hm, hd, h⟩))

/-! ## How an instruction ends -/

/-- The condition under which an instruction raises a fault of a kind (the table of R108). -/
def RaisesFault (i : Instr) (s : State) (kind : FaultKind) (value : Option Byte) : Prop :=
  match kind with
  | .unknownOpcode => False
  | .invalidKeyIndex => ∃ x, (i = .skp x ∨ i = .sknp x) ∧ value = some (s.getV x) ∧
      (s.getV x).toNat > 0xF
  | .stackOverflow => (∃ nnn, i = .call nnn) ∧ s.sp.val = 16 ∧ value = none
  | .stackUnderflow => i = .ret ∧ s.sp.val = 0 ∧ s.params.retUnderflow = .fault ∧ value = none
  | .invalidFontDigit => ∃ x, i = .ldF x ∧ value = some (s.getV x) ∧ (s.getV x).toNat > 0xF ∧
      s.params.fontDigit = .fault

/-- The mode in which a completed instruction leaves the engine: only Fx0A changes it (R24). -/
def modeAfter (s : State) : Instr → Mode
  | .ldVxKey x => .awaitingKey x s.keys
  | .cls | .ret | .jp _ | .call _ | .seLit _ _ | .sneLit _ _ | .seReg _ _ | .ldLit _ _
  | .addLit _ _ | .ldReg _ _ | .orReg _ _ | .andReg _ _ | .xorReg _ _ | .addReg _ _
  | .subReg _ _ | .shr _ _ | .sneReg _ _ | .ldI _ | .jpV0 _ | .rnd _ _ | .drw _ _ _ | .skp _
  | .sknp _ | .ldVxDt _ | .ldDtVx _ | .ldStVx _ | .addI _ | .ldF _ | .ldB _ | .storeRegs _
  | .loadRegs _ => s.mode

/-- An instruction completes, with its mode and no fault reported, or it raises one fault. -/
theorem exec_cases {i : Instr} {s t : State} (h : exec i s = .next t) :
    (t.result.fault = none ∧ t.mode = modeAfter s i) ∨
    ∃ kind value, t = s.raise kind (encode i) value ∧ RaisesFault i s kind value := by
  cases i
  case ret =>
    simp only [exec, execRet] at h
    split at h
    · rename_i a u hu
      cases h
      obtain ⟨h0, rfl, rfl⟩ := State.pop_eq_some hu
      exact .inl ⟨rfl, rfl⟩
    · rename_i hu
      rw [State.pop_eq_none] at hu
      split at h <;> cases h
      · exact .inr ⟨.stackUnderflow, none, rfl, rfl, hu, by assumption, rfl⟩
      · exact .inl ⟨rfl, rfl⟩
  case call nnn =>
    simp only [exec, execCall] at h
    split at h
    · rename_i u hu
      cases h
      obtain ⟨h0, rfl⟩ := State.push_eq_some hu
      exact .inl ⟨rfl, rfl⟩
    · rename_i hu
      rw [State.push_eq_none] at hu
      cases h
      exact .inr ⟨.stackOverflow, none, rfl, ⟨nnn, rfl⟩, hu, rfl⟩
  case skp x =>
    simp only [exec, execSkp] at h
    split at h <;> cases h
    · exact .inl ⟨rfl, rfl⟩
    · rename_i hk; rw [keyOfByte_eq_none] at hk
      exact .inr ⟨.invalidKeyIndex, _, rfl, x, .inl rfl, rfl, hk⟩
  case sknp x =>
    simp only [exec, execSknp] at h
    split at h <;> cases h
    · exact .inl ⟨rfl, rfl⟩
    · rename_i hk; rw [keyOfByte_eq_none] at hk
      exact .inr ⟨.invalidKeyIndex, _, rfl, x, .inr rfl, rfl, hk⟩
  case ldF x =>
    simp only [exec, execLdF] at h
    split at h <;> cases h
    · rename_i hk
      exact .inr ⟨.invalidFontDigit, _, rfl, x, rfl, rfl, hk.1, hk.2⟩
    · exact .inl ⟨rfl, rfl⟩
  all_goals
    cases h
    left
    simp [modeAfter, StepResult.quiet]

end Sys2Proof.Machine
end

