-- ==== Sys2Proof/Tests/Slice0.lean ====
section
/-! SUPPORT. Tests. Words are written out from the patterns of spec/30_encoding.md R47; steps are the
vectors T1 to T98, E1 to E10 and S1 to S9 of spec/95_test_vectors.md, named in each comment; the
last part shows, for each obligation that has hypotheses, a state and operands that meet them. -/

namespace Sys2Proof.Tests

open Sys2Proof Sys2Proof.Machine

/-! ## Helpers -/

/-- Whether one step from s with the word placed at PC answers a next state that p holds of. -/
def after (s : State) (w : Word) (p : State → Bool) : Bool :=
  match step (s.placeWord w) with
  | .next t => p t
  | .fault _ | .refused _ => false

/-- Whether one step from s, as it is, answers a next state that p holds of. -/
def stepped (s : State) (p : State → Bool) : Bool :=
  match step s with
  | .next t => p t
  | .fault _ | .refused _ => false

/-- The reset state with a parameter of 00_scope.md R6 changed. -/
def under (f : Params → Params) : State := { State.reset with params := f State.reset.params }

/-- The reset state with registers set. -/
def regs (rs : List (Reg × Byte)) : State := rs.foldl (fun s r => s.setV r.1 r.2) State.reset

/-- No key pressed but those listed. -/
def pressed (ks : List Key) : Keys := Vector.ofFn fun k => decide (k ∈ ks)

/-- Whether a step left s as it was but for the mode, halted with this record. -/
def haltedWith (kind : FaultKind) (pc op : Word) (value : Option Byte) (t : State) : Bool :=
  decide (t.mode = .halted { kind := kind, pc := pc, op := op, value := value }) &&
  decide (t.pc = pc)

/-! ## Decoding: one word for each instruction, and unknown words -/

theorem test_decode_family_0 :
    decode .present 0x00E0 = some .cls ∧ decode .present 0x00EE = some .ret ∧
    decode .present 0x0000 = none ∧ decode .present 0x01E0 = none := by decide

theorem test_decode_jumps :
    decode .present 0x1234 = some (.jp 0x234) ∧ decode .present 0x2ABC = some (.call 0xABC) ∧
    decode .present 0xB301 = some (.jpV0 0x301) := by decide

theorem test_decode_skips :
    decode .present 0x3A12 = some (.seLit 0xA 0x12) ∧
    decode .present 0x4B13 = some (.sneLit 0xB 0x13) ∧
    decode .present 0x5120 = some (.seReg 0x1 0x2) ∧
    decode .present 0x9340 = some (.sneReg 0x3 0x4) ∧
    decode .present 0x5121 = none ∧ decode .present 0x9121 = none := by decide

theorem test_decode_literals :
    decode .present 0x6A42 = some (.ldLit 0xA 0x42) ∧
    decode .present 0x7F01 = some (.addLit 0xF 0x01) ∧
    decode .present 0xC30F = some (.rnd 0x3 0x0F) := by decide

theorem test_decode_alu :
    decode .present 0x8AB0 = some (.ldReg 0xA 0xB) ∧
    decode .present 0x8AB1 = some (.orReg 0xA 0xB) ∧
    decode .present 0x8AB2 = some (.andReg 0xA 0xB) ∧
    decode .present 0x8AB3 = some (.xorReg 0xA 0xB) ∧
    decode .present 0x8AB4 = some (.addReg 0xA 0xB) ∧
    decode .present 0x8AB5 = some (.subReg 0xA 0xB) ∧
    decode .present 0x8AB6 = some (.shr 0xA 0xB) ∧
    decode .present 0x8127 = none ∧ decode .present 0x812E = none := by decide

theorem test_decode_alu_without_or_xor :
    decode .absent 0x8AB1 = none ∧ decode .absent 0x8AB3 = none ∧
    decode .absent 0x8AB2 = some (.andReg 0xA 0xB) := by decide

theorem test_decode_index :
    decode .present 0xA123 = some (.ldI 0x123) ∧ decode .present 0xF21E = some (.addI 0x2) ∧
    decode .present 0xF529 = some (.ldF 0x5) ∧ decode .present 0xFC33 = some (.ldB 0xC) ∧
    decode .present 0xFD55 = some (.storeRegs 0xD) ∧
    decode .present 0xFE65 = some (.loadRegs 0xE) := by decide

theorem test_decode_display :
    decode .present 0xD12F = some (.drw 0x1 0x2 0xF) ∧
    decode .present 0xD010 = some (.drw 0x0 0x1 0x0) := by decide

theorem test_decode_keys_timers :
    decode .present 0xE29E = some (.skp 0x2) ∧ decode .present 0xE7A1 = some (.sknp 0x7) ∧
    decode .present 0xF307 = some (.ldVxDt 0x3) ∧ decode .present 0xF50A = some (.ldVxKey 0x5) ∧
    decode .present 0xF115 = some (.ldDtVx 0x1) ∧ decode .present 0xF118 = some (.ldStVx 0x1) ∧
    decode .present 0xE09F = none ∧ decode .present 0xF0FF = none := by decide

/-- The table's numbering of bits: the one word, its least significant bit first. -/
theorem test_decode_table_word : decodeTableWord 16 0x6A42 = some (.ldLit 0xA 0x42) := by decide

/-- Two bytes, high byte first (R33). -/
theorem test_decode_bytes :
    decodeBytes .present [0x6A, 0x42, 0x99] = some (.ldLit 0xA 0x42, [0x99]) ∧
    decodeBytes .present [0x6A] = none := by decide

/-! ## WellFormed -/

/-- The one check of WellFormed: 8xy1 and 8xy3 are no instructions under P_OR_XOR = absent. -/
theorem test_wf_refuses_or_xor_when_absent :
    (Instr.orReg 1 2).wf .absent = false ∧ (Instr.xorReg 1 2).wf .absent = false ∧
    (Instr.orReg 1 2).wf .present = true ∧ (Instr.andReg 1 2).wf .absent = true := by decide

/-! ## Control flow (T1 to T24) -/

/-- T1: a return past the CALL. -/
theorem test_ret : after { State.reset with sp := 1, stack := State.reset.stack.set 0 0x0204 }
    0x00EE (fun t => decide (t.pc = 0x0206) && decide (t.sp = 0)) = true := by decide

/-- T2 and T3: a return with an empty stack. -/
theorem test_ret_underflow :
    after State.reset 0x00EE (haltedWith .stackUnderflow 0x200 0x00EE none) = true ∧
    after (under fun p => { p with retUnderflow := .popZero }) 0x00EE
      (fun t => decide (t.pc = 0x0002) && decide (t.mode = .running)) = true := by decide

/-- T5 and T8: an odd target is legal. -/
theorem test_jp : after State.reset 0x1301 (fun t => decide (t.pc = 0x0301)) = true := by decide

/-- T6 and T7: the self-jump signal. -/
theorem test_self_jump :
    after State.reset 0x1200 (fun t => decide (t.pc = 0x0200) && !t.result.selfJump) = true ∧
    after (under fun p => { p with selfJump := .on }) 0x1200
      (fun t => t.result.selfJump) = true := by decide

/-- T11: the last free slot takes the CALL's own address. -/
theorem test_call : after { State.reset with sp := 15 } 0x2300
    (fun t => decide (t.pc = 0x0300) && decide (t.sp = 16) && decide (t.stack[15] = 0x0200)) =
      true := by decide

/-- T10: no free slot. -/
theorem test_call_overflow : after { State.reset with sp := 16 } 0x2300
    (haltedWith .stackOverflow 0x200 0x2300 none) = true := by decide

/-- T12 and T13. -/
theorem test_se_literal :
    after (regs [(3, 0x12)]) 0x3312 (fun t => decide (t.pc = 0x0204)) = true ∧
    after (regs [(3, 0x12)]) 0x3313 (fun t => decide (t.pc = 0x0202)) = true := by decide

/-- T14: PC arithmetic wraps at 2^16. -/
theorem test_skip_wraps : after { State.reset with pc := 0xFFFC } 0x3000
    (fun t => decide (t.pc = 0x0000)) = true := by decide

/-- T15 and T16. -/
theorem test_sne_literal :
    after (regs [(3, 0x12)]) 0x4313 (fun t => decide (t.pc = 0x0204)) = true ∧
    after (regs [(3, 0x12)]) 0x4312 (fun t => decide (t.pc = 0x0202)) = true := by decide

/-- T17, and T19: the last digit must be 0. -/
theorem test_se_registers :
    after (regs [(1, 0x7F), (2, 0x7F)]) 0x5120 (fun t => decide (t.pc = 0x0204)) = true ∧
    after (regs [(1, 0x7F), (2, 0x7F)]) 0x5121
      (haltedWith .unknownOpcode 0x200 0x5121 none) = true := by decide

/-- T20 and T21. -/
theorem test_sne_registers :
    after (regs [(1, 1), (2, 2)]) 0x9120 (fun t => decide (t.pc = 0x0204)) = true ∧
    after (regs [(1, 1)]) 0x9110 (fun t => decide (t.pc = 0x0202)) = true := by decide

/-- T24: the sum of Bnnn is not reduced to 12 bits. -/
theorem test_jp_v0 : after (regs [(0, 0xFF)]) 0xBFFF (fun t => decide (t.pc = 0x10FE)) = true := by
  decide

/-! ## Registers and the ALU (T25 to T51) -/

/-- T26: VF is an ordinary destination. -/
theorem test_ld_literal : after State.reset 0x6F01
    (fun t => decide (t.getV vf = 1) && decide (t.pc = 0x0202)) = true := by decide

/-- T27: the sum wraps and VF stays. -/
theorem test_add_literal : after (regs [(1, 0xF0), (0xF, 0x07)]) 0x7120
    (fun t => decide (t.getV 1 = 0x10) && decide (t.getV vf = 0x07)) = true := by decide

/-- T29. -/
theorem test_ld_register : after (regs [(2, 0x33)]) 0x8120
    (fun t => decide (t.getV 1 = 0x33) && decide (t.getV 2 = 0x33)) = true := by decide

/-- T30 and T31. -/
theorem test_or :
    after (regs [(1, 0x0F), (2, 0xF0), (0xF, 0x05)]) 0x8121
      (fun t => decide (t.getV 1 = 0xFF) && decide (t.getV vf = 0x05)) = true ∧
    after (under fun p => { p with orXor := .absent }) 0x8121
      (haltedWith .unknownOpcode 0x200 0x8121 none) = true := by decide

/-- T32. -/
theorem test_and : after (regs [(1, 0x3C), (2, 0x0F), (0xF, 0x05)]) 0x8122
    (fun t => decide (t.getV 1 = 0x0C) && decide (t.getV vf = 0x05)) = true := by decide

/-- T33. -/
theorem test_xor : after (regs [(1, 0xFF), (2, 0x0F)]) 0x8123
    (fun t => decide (t.getV 1 = 0xF0)) = true := by decide

/-- T35, and E3: without a carry VF is cleared. -/
theorem test_add_carry :
    after (regs [(1, 0xFF), (2, 0x01)]) 0x8124
      (fun t => decide (t.getV 1 = 0x00) && decide (t.getV vf = 1)) = true ∧
    after (regs [(1, 0x01), (2, 0x01), (0xF, 0x01)]) 0x8124
      (fun t => decide (t.getV 1 = 0x02) && decide (t.getV vf = 0)) = true := by decide

/-- T38 and T39: the destination is VF. -/
theorem test_add_vf :
    after (regs [(0xF, 0xFF), (1, 0x03)]) 0x8F14 (fun t => decide (t.getV vf = 0x02)) = true ∧
    after (((under fun p => { p with vfDest := .flag }).setV 0xF 0xFF).setV 1 0x03) 0x8F14
      (fun t => decide (t.getV vf = 0x01)) = true := by decide

/-- T40 and E5. -/
theorem test_sub_borrow :
    after (regs [(1, 0x05), (2, 0x03)]) 0x8125
      (fun t => decide (t.getV 1 = 0x02) && decide (t.getV vf = 1)) = true ∧
    after (regs [(1, 0x03), (2, 0x05), (0xF, 0x01)]) 0x8125
      (fun t => decide (t.getV 1 = 0xFE) && decide (t.getV vf = 0)) = true := by decide

/-- T42 and T43: equal operands. -/
theorem test_sub_equal :
    after (regs [(1, 0x07), (2, 0x07)]) 0x8125 (fun t => decide (t.getV vf = 0)) = true ∧
    after (((under fun p => { p with subFlag := .ge }).setV 1 0x07).setV 2 0x07) 0x8125
      (fun t => decide (t.getV vf = 1)) = true := by decide

/-- T46: the y field is ignored, and no sign enters. -/
theorem test_shr : after (regs [(1, 0x80), (0xF, 0x01)]) 0x81F6
    (fun t => decide (t.getV 1 = 0x40) && decide (t.getV vf = 0)) = true := by decide

/-- T47 and T47a: the destination is VF. -/
theorem test_shr_vf :
    after (regs [(0xF, 0x02)]) 0x8F06 (fun t => decide (t.getV vf = 0x01)) = true ∧
    after ((under fun p => { p with vfDest := .flag }).setV 0xF 0x02) 0x8F06
      (fun t => decide (t.getV vf = 0x00)) = true := by decide

/-- T50, with the byte drawn given: the draw itself is a free value. -/
theorem test_rnd : (State.reset.random 0xA7 3 0x0F).getV 3 = 0x07 ∧
    (State.reset.random 0xA7 3 0x0F).pc = 0x0202 := by decide

/-- T51: the mask 0, whatever is drawn. -/
theorem test_rnd_masked (r : Byte) : (State.reset.random r 3 0x00).getV 3 = 0 := by
  revert r; decide

/-! ## The index register and memory transfers (T52 to T68) -/

/-- T52. -/
theorem test_ld_index : after State.reset 0xA300 (fun t => decide (t.i = 0x0300)) = true := by
  decide

/-- T54, T55: past 12 bits, by P_ADD_I_WIDTH. -/
theorem test_add_index :
    after { regs [(2, 0x01)] with i := 0x0FFF } 0xF21E (fun t => decide (t.i = 0x1000)) = true ∧
    after { (under fun p => { p with addIWidth := .w12 }).setV 2 0x01 with i := 0x0FFF } 0xF21E
      (fun t => decide (t.i = 0x0000)) = true := by decide

/-- T56: I wraps at 2^16 and VF stays. -/
theorem test_add_index_wraps : after { regs [(2, 0x01), (0xF, 0x07)] with i := 0xFFFF } 0xF21E
    (fun t => decide (t.i = 0x0000) && decide (t.getV vf = 0x07)) = true := by decide

/-- T58 and T60. -/
theorem test_font_digit :
    after (regs [(5, 0x0F)]) 0xF529 (fun t => decide (t.i = 0x004B)) = true ∧
    after ((under fun p => { p with fontDigit := .compute }).setV 5 0xFF) 0xF529
      (fun t => decide (t.i = 0x04FB)) = true := by decide

/-- T59: no glyph. -/
theorem test_font_digit_fault : after { regs [(5, 0x10)] with i := 0x0123 } 0xF529
    (fun t => haltedWith .invalidFontDigit 0x200 0xF529 (some 0x10) t &&
      decide (t.i = 0x0123)) = true := by decide

/-- T61. -/
theorem test_bcd : after { regs [(0, 0x9C)] with i := 0x0300 } 0xF033
    (fun t => decide (t.readByte 0x300 = 1) && decide (t.readByte 0x301 = 5) &&
      decide (t.readByte 0x302 = 6)) = true := by decide

/-- T62: the third digit wraps to 0x000, over a font byte. -/
theorem test_bcd_wraps : after { regs [(0, 0xFF)] with i := 0x0FFE } 0xF033
    (fun t => decide (t.readByte 0xFFF = 5) && decide (t.readByte 0x000 = 5)) = true := by decide

/-- T64, and T65: V1 is not stored. -/
theorem test_store_registers :
    after { regs [(0, 0x11), (1, 0x22), (2, 0x33)] with i := 0x0300 } 0xF255
      (fun t => decide (t.readByte 0x302 = 0x33) && decide (t.readByte 0x303 = 0)) = true ∧
    after { regs [(0, 0x11), (1, 0x22)] with i := 0x0FFF } 0xF055
      (fun t => decide (t.readByte 0xFFF = 0x11) && decide (t.readByte 0x000 = 0xF0)) = true := by
  decide

/-- T67. -/
theorem test_load_registers :
    after { State.reset.writeBytes 0x300 [0x11, 0x22, 0x33] with i := 0x0300 } 0xF265
      (fun t => decide (t.getV 0 = 0x11) && decide (t.getV 2 = 0x33) && decide (t.i = 0x0300)) =
        true := by decide

/-- T68: the first bytes of the font. -/
theorem test_load_font : after State.reset 0xFF65
    (fun t => decide (t.getV 0xA = 0xF0) && decide (t.getV 0xD = 0x80) &&
      decide (t.getV 0xF = 0xF0)) = true := by decide

/-! ## The display (T69 to T79) -/

/-- T69. -/
theorem test_cls : after { State.reset with fb := State.reset.fb.set 31 (State.reset.fb[31].set 63 true) }
    0x00E0 (fun t => decide (t.fb = State.reset.fb) && t.result.draw) = true := by decide

/-- T71: the glyph 0. -/
theorem test_draw_glyph : after State.reset 0xD015
    (fun t => t.fb[0][3] && t.fb[1][0] && t.fb[1][3] && !t.fb[1][1] && !t.fb[0][4] &&
      decide (t.getV vf = 0)) = true := by decide

/-- T72: one pixel was on. -/
theorem test_draw_collides :
    after { State.reset with fb := State.reset.fb.set 0 (State.reset.fb[0].set 0 true) } 0xD015
      (fun t => !t.fb[0][0] && t.fb[0][1] && decide (t.getV vf = 1)) = true := by decide

/-- T74 and T75: a sprite across both edges. -/
theorem test_draw_edges :
    after { (regs [(0, 0x3E), (1, 0x1F)]).writeByte 0x300 0xFF with i := 0x0300 } 0xD011
      (fun t => t.fb[31][63] && t.fb[31][0] && t.fb[31][5] && !t.fb[31][6]) = true ∧
    after { (((under fun p => { p with drawEdge := .clip }).setV 0 0x3E).setV 1 0x1F).writeByte
        0x300 0xFF with i := 0x0300 } 0xD011
      (fun t => t.fb[31][62] && t.fb[31][63] && !t.fb[31][0]) = true := by decide

/-- T78: VF is the coordinate first and the flag after. -/
theorem test_draw_vf_coordinate :
    after { (regs [(0xF, 0x05)]).writeByte 0x300 0x80 with i := 0x0300 } 0xDF01
      (fun t => t.fb[0][5] && decide (t.getV vf = 0)) = true := by decide

/-! ## Keys and timers (T80 to T91) -/

/-- T80 and T81. -/
theorem test_skp :
    after { regs [(2, 0x05)] with keys := pressed [5] } 0xE29E
      (fun t => decide (t.pc = 0x0204)) = true ∧
    after (regs [(2, 0x05)]) 0xE29E (fun t => decide (t.pc = 0x0202)) = true := by decide

/-- T83 and T86: no key has that index. -/
theorem test_key_index_fault :
    after (regs [(2, 0x10)]) 0xE29E
      (haltedWith .invalidKeyIndex 0x200 0xE29E (some 0x10)) = true ∧
    after (regs [(2, 0x80)]) 0xE2A1
      (haltedWith .invalidKeyIndex 0x200 0xE2A1 (some 0x80)) = true := by decide

/-- T84 and T85. -/
theorem test_sknp :
    after (regs [(2, 0x05)]) 0xE2A1 (fun t => decide (t.pc = 0x0204)) = true ∧
    after { regs [(2, 0x05)] with keys := pressed [5] } 0xE2A1
      (fun t => decide (t.pc = 0x0202)) = true := by decide

/-- T87. -/
theorem test_ld_from_dt : after { State.reset with dt := 0x3C } 0xF307
    (fun t => decide (t.getV 3 = 0x3C) && decide (t.dt = 0x3C)) = true := by decide

/-- T89: a key held at entry does not complete the wait. -/
theorem test_key_wait_begins : after { State.reset with keys := pressed [7] } 0xF50A
    (fun t => decide (t.mode = .awaitingKey 5 (pressed [7])) && decide (t.pc = 0x0200) &&
      t.result.waiting) = true := by decide

/-- S1 and S2, the second step: a held key is no edge, and it is a level. -/
theorem test_key_wait_held :
    stepped { State.reset with keys := pressed [7], mode := .awaitingKey 5 (pressed [7]) }
      (fun t => decide (t.mode = .awaitingKey 5 (pressed [7])) && decide (t.pc = 0x0200)) = true ∧
    stepped { (under fun p => { p with keyWait := .level }) with
        keys := pressed [7], mode := .awaitingKey 5 (pressed [7]) }
      (fun t => decide (t.getV 5 = 7) && decide (t.mode = .running) && decide (t.pc = 0x0202)) =
        true := by decide

/-- S3: the lowest of several keys. -/
theorem test_key_wait_lowest :
    stepped { State.reset with keys := pressed [3, 9], mode := .awaitingKey 5 (pressed []) }
      (fun t => decide (t.getV 5 = 3) && !t.result.waiting) = true := by decide

/-- T90. -/
theorem test_ld_dt : after (regs [(1, 0x3C)]) 0xF115 (fun t => decide (t.dt = 0x3C)) = true := by
  decide

/-- T91. -/
theorem test_ld_st : after (regs [(1, 0x02)]) 0xF118
    (fun t => decide (t.st = 0x02) && t.toneActive) = true := by decide

/-! ## The step, fetch and the host (T92 to T98, S5 to S8) -/

/-- T92: empty memory holds no instruction. -/
theorem test_unknown_word : stepped State.reset (haltedWith .unknownOpcode 0x200 0x0000 none) = true := by
  decide

/-- T96: the low byte comes from 0x000, and PC is not masked. -/
theorem test_fetch_wraps :
    stepped ({ State.reset with pc := 0x0FFF }.writeBytes 0x0FFF [0x61, 0x23])
      (fun t => decide (t.getV 1 = 0x23) && decide (t.pc = 0x1001)) = true := by decide

/-- T97: an odd PC. -/
theorem test_fetch_odd : after { State.reset with pc := 0x0201 } 0x6342
    (fun t => decide (t.getV 3 = 0x42) && decide (t.pc = 0x0203)) = true := by decide

/-- S7: a halted engine reports its fault again. -/
theorem test_halted_reports :
    let f : FaultRecord := { kind := .unknownOpcode, pc := 0x200, op := 0x0000, value := none }
    stepped { State.reset with mode := .halted f }
      (fun t => decide (t.result.fault = some f) && decide (f.code = 1)) = true := by decide

/-- S5: the tone-off edge, and the clamp. -/
theorem test_tick :
    ({ State.reset with dt := 2, st := 1 }.tickTimers.1 = true ∧
      { State.reset with dt := 2, st := 1 }.tickTimers.2.dt = 1 ∧
      { State.reset with dt := 2, st := 1 }.tickTimers.2.st = 0) ∧
    State.reset.tickTimers.1 = false ∧ State.reset.tickTimers.2.dt = 0 := by decide

/-- S8: a load of two bytes. -/
theorem test_load :
    (State.reset.load [0x12, 0x34]).1 = .ok ∧
    (State.reset.load [0x12, 0x34]).2.readByte 0x201 = 0x34 := by decide

/-- S8 and E9: 3585 bytes are too many. -/
theorem test_load_too_large (rom : List Byte) (h : rom.length = 3585) :
    State.reset.load rom = (.romTooLarge, State.reset) := by simp [State.load, h]

/-- The framebuffer accessor lists pixel (px, py) at py * 64 + px (10_state.md R23). -/
theorem test_screen_bits (s : State) :
    s.screenBits[66] = s.fb[1][2] ∧ s.screenBits[2047] = s.fb[31][63] := by
  simp [State.screenBits]

/-! ## Witnesses: the hypotheses of the obligations are met -/

/-- EncodeInvertsDecode, under both values of P_OR_XOR. -/
theorem test_witness_decoded :
    decode .present 0x8AB1 = some (.orReg 0xA 0xB) ∧ decode .absent 0xFF65 = some (.loadRegs 0xF) :=
  by decide

/-- DecodeMatchesFixedBits and EncodedBytesDecode. -/
theorem test_witness_wf :
    (Instr.orReg 0xF 0x0).wf .present = true ∧ (Instr.drw 0xF 0xF 0xF).wf .absent = true := by
  decide

/-- CanonicalMemoriesReadingAlikeAreEqual: two cells written in either order. -/
theorem test_witness_canonical_memories :
    let m := Memory.write defaultFont (Memory.write defaultFont [] 4095 7) 0 9
    let m' := Memory.write defaultFont (Memory.write defaultFont [] 0 9) 4095 7
    Memory.wf defaultFont m = true ∧ Memory.wf defaultFont m' = true ∧
      ∀ a, Memory.read defaultFont m a = Memory.read defaultFont m' a := by
  refine ⟨by decide, by decide, fun a => ?_⟩
  simp only [Memory.read_write]
  split <;> split <;> first | rfl | omega

/-- PlacedInstructionRuns, StepRunsDecodedInstruction, and the first case of ModeTransitions and
StepResultFields: a running engine at an instruction. -/
theorem test_witness_running :
    (State.reset.withFetchWord 16 0xF50A).mode = .running ∧
    decode (State.reset.withFetchWord 16 0xF50A).params.orXor
      ((State.reset.withFetchWord 16 0xF50A).fetch (State.reset.withFetchWord 16 0xF50A).pc) =
        some (.ldVxKey 5) ∧
    ∃ t, step (State.reset.withFetchWord 16 0xF50A) = .next t :=
  ⟨by decide, by decide, _, rfl⟩

/-- UnknownOpcodeHalts; FaultingStepIsPrecise (the step of this state reports a fault). -/
theorem test_witness_unknown :
    State.reset.mode = .running ∧
    decode State.reset.params.orXor (State.reset.fetch State.reset.pc) = none ∧
    ∃ t f, step State.reset = .next t ∧ t.result.fault = some f :=
  ⟨by decide, by decide, _, _, rfl, rfl⟩

/-- The reset state halted at the empty memory it holds. -/
def haltedState : State :=
  { State.reset with
    mode := .halted { kind := .unknownOpcode, pc := 0x200, op := 0x0000, value := none } }

/-- HaltedStepReportsAgain, FaultingStepIsPrecise and StepKeepsHaltConsistent, from a halted
engine. -/
theorem test_witness_halted :
    (∃ f, haltedState.mode = .halted f) ∧ haltedState.HaltConsistent ∧
    ∃ t f, step haltedState = .next t ∧ t.result.fault = some f :=
  ⟨⟨_, rfl⟩, ⟨rfl, by decide, by decide, rfl⟩, _, _, rfl, rfl⟩

/-- An engine waiting at an Fx0A, with the given baseline and keys now pressed. -/
def waitingState (baseline now : Keys) : State :=
  { State.reset.placeWord 0xFF0A with mode := .awaitingKey 0xF baseline, keys := now }

/-- StepKeepsWaitConsistent, and the second case of ModeTransitions and StepResultFields. -/
theorem test_witness_waiting :
    (waitingState (pressed []) (pressed [15])).WaitConsistent ∧
    ∃ t, step (waitingState (pressed []) (pressed [15])) = .next t :=
  ⟨by unfold State.WaitConsistent waitingState; decide, _, rfl⟩

/-- KeyWaitPolls, first clause: every key held at the baseline is no candidate. -/
theorem test_witness_no_candidate :
    (waitingState (pressed [0, 15]) (pressed [0, 15])).mode = .awaitingKey 0xF (pressed [0, 15]) ∧
    ∀ k, ¬ KeyCandidate (waitingState (pressed [0, 15]) (pressed [0, 15])) (pressed [0, 15]) k := by
  refine ⟨rfl, fun k h => ?_⟩
  have h1 : (pressed [0, 15])[k] = true := h.1
  have h2 : (pressed [0, 15])[k] = false := h.2
  rw [h1] at h2
  cases h2

/-- KeyWaitPolls, second clause, at the highest key: 15 alone is new. -/
theorem test_witness_candidate :
    KeyCandidate (waitingState (pressed [0]) (pressed [0, 15])) (pressed [0]) 15 ∧
    ∀ j, j < 15 → ¬ KeyCandidate (waitingState (pressed [0]) (pressed [0, 15])) (pressed [0]) j := by
  refine ⟨⟨by decide, show (pressed [0])[(15 : Key)] = false by decide⟩, fun j hj h => ?_⟩
  have h1 : (pressed [0, 15])[j] = true := h.1
  have h2 : (pressed [0])[j] = false := h.2
  clear h
  revert h1 h2 hj
  revert j
  decide

/-- PcFollowsTable and InstructionFrame, for a draw, a random draw and a return that pops nothing. -/
theorem test_witness_completed :
    (∃ t, exec (.drw 0xF 0xF 0xF) State.reset = .next t ∧ t.result.fault = none) ∧
    (∃ t, exec (.rnd 0xF 0xFF) State.reset = .next t ∧ t.result.fault = none) ∧
    (∃ t, exec .ret (under fun p => { p with retUnderflow := .popZero }) = .next t ∧
      t.result.fault = none) :=
  ⟨⟨_, rfl, rfl⟩, ⟨_, rfl, rfl⟩, ⟨_, rfl, rfl⟩⟩

/-- ScreenChangesOnlyWithDrawFlag. -/
theorem test_witness_not_drawn :
    ∃ t, step (State.reset.withFetchWord 16 0x6A42) = .next t ∧ t.result.draw = false :=
  ⟨_, rfl, by decide⟩

/-- StepIgnoresRandomnessUnlessRnd: a running engine at a CLS. -/
theorem test_witness_not_random :
    (State.reset.withFetchWord 16 0x00E0).mode = .running ∧
    ∀ x kk, decode (State.reset.withFetchWord 16 0x00E0).params.orXor
      ((State.reset.withFetchWord 16 0x00E0).fetch (State.reset.withFetchWord 16 0x00E0).pc) ≠
        some (.rnd x kk) := by
  refine ⟨by decide, fun x kk h => ?_⟩
  have : decode (State.reset.withFetchWord 16 0x00E0).params.orXor
      ((State.reset.withFetchWord 16 0x00E0).fetch (State.reset.withFetchWord 16 0x00E0).pc) =
        some .cls := by decide
  rw [this] at h
  cases h

/-- StepKeepsMemoryCanonical and HostSchedulesKeepMemoryCanonical, with a cell listed. -/
theorem test_witness_memory_canonical :
    (State.reset.withFetchWord 16 0xF055).MemoryCanonical ∧
    (State.reset.withFetchWord 16 0xF055).mem ≠ [] ∧
    ∃ t, step (State.reset.withFetchWord 16 0xF055) = .next t :=
  ⟨by unfold State.MemoryCanonical; decide, by decide, _, rfl⟩

/-- CallPushesItsAddress and CallThenReturnComesBack, with the first and the last free slot. -/
theorem test_witness_call :
    (State.reset.sp.val < 16 ∧ ∃ t, exec (.call 0xFFF) State.reset = .next t) ∧
    ({ State.reset with sp := 15 }.sp.val < 16 ∧
      ∃ t, exec (.call 0x000) { State.reset with sp := 15 } = .next t) :=
  ⟨⟨by decide, _, rfl⟩, ⟨by decide, _, rfl⟩⟩

/-- ReturnPops: an occupied slot (the first and the last), and none under pop_zero. -/
theorem test_witness_return :
    { State.reset with sp := 1 }.sp.val ≠ 0 ∧ { State.reset with sp := 16 }.sp.val ≠ 0 ∧
    (under fun p => { p with retUnderflow := .popZero }).sp.val = 0 ∧
    (under fun p => { p with retUnderflow := .popZero }).params.retUnderflow = .popZero := by decide

/-- SkipsOnRegisters, last clause, in both families. -/
theorem test_witness_unmatched_skips :
    ((0x5FF1 : Word).toNat / 4096 = 5 ∧ (0x5FF1 : Word).toNat % 16 ≠ 0) ∧
    ((0x900F : Word).toNat / 4096 = 9 ∧ (0x900F : Word).toNat % 16 ≠ 0) := by decide

/-- OperandFaultsHalt: a full stack, an empty one, the first V[x] that is no key and no digit. -/
theorem test_witness_operand_faults :
    { State.reset with sp := 16 }.sp.val = 16 ∧
    (State.reset.sp.val = 0 ∧ State.reset.params.retUnderflow = .fault) ∧
    ((regs [(0xF, 0x10)]).getV 0xF).toNat > 0xF ∧
    (regs [(0xF, 0x10)]).params.fontDigit = .fault := by decide

/-- AddSetsCarry, SubtractSetsNotBorrow and ShiftRight: a destination other than VF, and VF under both
values of P_VF_DEST. -/
theorem test_witness_vf_dest :
    (0 : Reg) ≠ vf ∧ (State.reset.params.vfDest = .result ∧ ¬ vf ≠ vf) ∧
    (under fun p => { p with vfDest := .flag }).params.vfDest = .flag := by decide

/-- RandomIsMasked: both masks its clauses name are operands of instructions, which complete. -/
theorem test_witness_masks :
    (∃ kk : Byte, kk = 0x00 ∧ ∃ t, exec (.rnd 0xF kk) State.reset = .next t) ∧
    ∃ kk : Byte, kk = 0xFF ∧ ∃ t, exec (.rnd 0x0 kk) State.reset = .next t :=
  ⟨⟨_, rfl, _, rfl⟩, _, rfl, _, rfl⟩

/-- FontGlyphAddress: the last digit under `fault`, and the largest byte under `compute`. -/
theorem test_witness_font_digit :
    ((regs [(5, 0x0F)]).getV 5).toNat ≤ 0xF ∧
    (((under fun p => { p with fontDigit := .compute }).setV 5 0xFF).getV 5).toNat = 0xFF ∧
    ((under fun p => { p with fontDigit := .compute }).setV 5 0xFF).params.fontDigit = .compute := by
  decide

/-- StoreThenLoadRestores: stored at the top of memory, then every register cleared. -/
theorem test_witness_store_then_load :
    ∃ t u : State, exec (.storeRegs 0xF) { regs [(0xF, 0x99)] with i := 0x0FF8 } = .next t ∧
      u.mem = t.mem ∧ u.params = t.params ∧ u.i = t.i ∧ u.getV 0xF = 0 ∧ t.getV 0xF = 0x99 :=
  ⟨_, { ({ regs [(0xF, 0x99)] with i := 0x0FF8 } : State).writeBytes 0x0FF8
      (({ regs [(0xF, 0x99)] with i := 0x0FF8 } : State).regsUpTo 0xF) with
        v := State.reset.v }, rfl, rfl, rfl, rfl, by decide, by decide⟩

/-- DrawInvertsSpritePixels: the glyph 0 lights the pixel at the corner and not the one inside it;
it collides when that pixel is on, and not on a clear screen. -/
theorem test_witness_lights :
    SpriteLights State.reset 0 1 5 0 0 ∧ ¬ SpriteLights State.reset 0 1 0 0 0 ∧
    (∃ (py : Fin 32) (px : Fin 64),
      SpriteLights { State.reset with fb := State.reset.fb.set 0 (State.reset.fb[0].set 0 true) }
        0 1 5 py px ∧
      { State.reset with fb := State.reset.fb.set 0 (State.reset.fb[0].set 0 true) }.fb[py][px] =
        true) ∧
    ¬ ∃ (py : Fin 32) (px : Fin 64),
      SpriteLights State.reset 0 1 5 py px ∧ State.reset.fb[py][px] = true := by
  refine ⟨⟨0, 0, by decide, by decide, by decide, rfl, rfl⟩, ?_,
    ⟨0, 0, ⟨0, 0, by decide, by decide, by decide, rfl, rfl⟩, by decide⟩, ?_⟩
  · rintro ⟨r, c, hr, -⟩
    exact absurd hr (Nat.not_lt_zero r)
  · rintro ⟨py, px, -, h⟩
    simp [State.reset] at h

/-- DrawTwiceRestoresScreen. -/
theorem test_witness_draw_twice :
    (0 : Reg) ≠ vf ∧ (0xE : Reg) ≠ vf ∧ ∃ t, exec (.drw 0 0xE 0xF) State.reset = .next t :=
  ⟨by decide, by decide, _, rfl⟩

/-- KeySkips, at the highest key. -/
theorem test_witness_key_index : ((regs [(2, 0x0F)]).getV 2).toNat < 16 := by decide

/-- LoadIsAllOrNothing: the longest ROM that fits, and one byte more. -/
theorem test_witness_rom_lengths :
    (List.replicate 3584 (0xAB : Byte)).length ≤ 3584 ∧
    (List.replicate 3585 (0xAB : Byte)).length > 3584 :=
  ⟨(List.length_replicate ..).le, by rw [List.length_replicate]; decide⟩

end Sys2Proof.Tests
end

section
/-! PROOFS. Memory (spec 20_memory.md): what one byte write changes (R32), and the fetch (R34). -/

namespace Sys2Proof.Machine

/-! ## One byte write (R32) -/

/-- A byte write stores one byte and keeps every other part of the machine. -/
theorem State.frame_writeByte (s : State) (a : Word) (b : Byte) :
    Frame { stored := (a, 1) } s (s.writeByte a b) := by
  refine ⟨fun r _ => s.writeByte_getV a b r, fun _ => s.writeByte_i a b,
    fun _ => ⟨s.writeByte_sp a b, s.writeByte_stack a b⟩, fun _ => s.writeByte_dt a b,
    fun _ => s.writeByte_st a b, fun _ => s.writeByte_fb a b, fun _ => s.writeByte_mode a b,
    fun _ => s.writeByte_draws a b, s.writeByte_keys a b, s.writeByte_params a b, ?_⟩
  exact fun c hc => State.readByte_writeBytes_outside [b] s a c hc

/-- Settles O6: the read-after-write law with both addresses reduced, and the frame of a write. -/
theorem writeChangesOneCell : Obligations.WriteChangesOneCell := by
  intro s a c b
  refine ⟨?_, s.frame_writeByte a b, s.writeByte_pc a b, s.writeByte_result a b⟩
  rw [State.readByte_writeByte, effAddr_eq, effAddr_eq]

/-! ## The fetch (R34) -/

/-- The cell after an address, reduced: after 0xFFF comes 0x000 (R30). -/
theorem effAddr_succ (a : Word) : effAddr (a + 1) = (a.toNat + 1) % 4096 := effAddr_add a 1

/-- The high byte of the fetched word is the byte at PC. -/
theorem State.toNat_fetch_div (s : State) (pc : Word) :
    (s.fetch pc).toNat / 256 = (s.readByte pc).toNat := by
  have hlo := (s.readByte (pc + 1)).isLt
  rw [State.toNat_fetch]
  omega

/-- The low byte of the fetched word is the byte at PC + 1. -/
theorem State.toNat_fetch_mod (s : State) (pc : Word) :
    (s.fetch pc).toNat % 256 = (s.readByte (pc + 1)).toNat := by
  have hlo := (s.readByte (pc + 1)).isLt
  rw [State.toNat_fetch]
  omega

/-- Settles O7: the fetched word is the two cells read at the reduced addresses of PC and PC + 1, and
a store to the cell of either half is what that half reads. -/
theorem fetchIsBigEndian : Obligations.FetchIsBigEndian := by
  intro s pc
  refine ⟨?word, fun a b => ⟨fun ha => ?high, fun ha => ?low⟩⟩
  case word =>
    rw [State.toNat_fetch, State.readByte, State.readByte, effAddr_eq, effAddr_succ, Nat.mul_comm]
  case high =>
    have hcell : effAddr pc = effAddr a := by rw [effAddr_eq, effAddr_eq, ha]
    rw [State.toNat_fetch_div, State.readByte_writeByte, if_pos hcell]
  case low =>
    have hcell : effAddr (pc + 1) = effAddr a := by rw [effAddr_succ, effAddr_eq, ha]
    rw [State.toNat_fetch_mod, State.readByte_writeByte, if_pos hcell]

end Sys2Proof.Machine
end

section
/-! PROOFS. Register loads and additions (spec 42_register_alu.md R77 to R79): the instructions that
write one register and advance. -/

namespace Sys2Proof.Machine

/-! ## Writing one register and advancing (R12, R59) -/

/-- Writing V[x] and advancing keeps every other part of the machine. -/
theorem State.frame_setV_advance (s : State) (x : Reg) (b : Byte) :
    Frame { regs := [x] } s (s.setV x b).advance := by
  have hregs : ∀ r : Reg, r ∉ [x] → (s.setV x b).advance.getV r = s.getV r := by
    intro r hr
    rw [State.advance_getV, State.getV_setV_ne s b (List.ne_of_not_mem_cons hr)]
  exact ⟨hregs, fun _ => rfl, fun _ => ⟨rfl, rfl⟩, fun _ => rfl, fun _ => rfl, fun _ => rfl,
    fun _ => rfl, fun _ => rfl, rfl, rfl, fun _ _ => rfl⟩

/-- An instruction that writes a byte to V[x] and advances executes with that byte in V[x] and
changes no other register, VF included. -/
theorem executes_of_setV_advance {i : Instr} {s : State} {x : Reg} {b : Byte}
    (h : exec i s = .next (s.setV x b).advance) :
    Executes i s { regs := [x] } (fun t => t.getV x = b) := by
  have hx : (s.setV x b).advance.getV x = b := by
    rw [State.advance_getV, State.getV_setV_self]
  exact ⟨(s.setV x b).advance, h, s.frame_setV_advance x b, hx⟩

/-- What an instruction executes with may be weakened. -/
theorem Executes.imp {i : Instr} {s : State} {c : MayChange} {p q : State → Prop}
    (h : Executes i s c p) (hpq : ∀ t, p t → q t) : Executes i s c q := by
  obtain ⟨t, hexec, hframe, hp⟩ := h
  exact ⟨t, hexec, hframe, hpq t hp⟩

theorem exec_ldLit (x : Reg) (kk : Byte) (s : State) :
    exec (.ldLit x kk) s = .next (s.setV x kk).advance := rfl

theorem exec_addLit (x : Reg) (kk : Byte) (s : State) :
    exec (.addLit x kk) s = .next (s.setV x (s.getV x + kk)).advance := rfl

theorem exec_ldReg (x y : Reg) (s : State) :
    exec (.ldReg x y) s = .next (s.setV x (s.getV y)).advance := rfl

/-! ## The obligations (R77 to R79) -/

/-- Settles O36: the word by its fields, and one write of the literal. -/
theorem loadLiteral : Obligations.LoadLiteral := by
  intro x kk s
  exact ⟨toNat_wordXKk 0x6 x kk, executes_of_setV_advance (exec_ldLit x kk s)⟩

/-- Settles O37: the word by its fields, and one write of the byte sum, which is the sum modulo
256. -/
theorem addLiteral : Obligations.AddLiteral := by
  intro x kk s
  refine ⟨toNat_wordXKk 0x7 x kk, (executes_of_setV_advance (exec_addLit x kk s)).imp ?_⟩
  intro t hsum
  rw [hsum, BitVec.toNat_add]

/-- Settles O38: the word by its fields, and one write of the byte read from V[y]. -/
theorem copyRegister : Obligations.CopyRegister := by
  intro x y s
  exact ⟨toNat_wordXyN 0x8 x y 0x0, executes_of_setV_advance (exec_ldReg x y s)⟩

end Sys2Proof.Machine
end

section
/-! PROOFS. The index register (spec 43_index_memory.md R88): the load of I with an address. -/

namespace Sys2Proof.Machine

/-- An address widened to a word is the same number (R88). -/
theorem toNat_zextAddr (nnn : Addr) : (zextAddr nnn).toNat = nnn.toNat :=
  BitVec.toNat_setWidth_of_le (by decide)

/-- Writing I and advancing keeps every other part of the machine. -/
theorem State.frame_setIndex_advance (s : State) (a : Word) :
    Frame { index := true } s { s with i := a }.advance := by
  have hindex : true = false → { s with i := a }.advance.i = s.i := nofun
  exact ⟨fun _ _ => rfl, hindex, fun _ => ⟨rfl, rfl⟩, fun _ => rfl, fun _ => rfl, fun _ => rfl,
    fun _ => rfl, fun _ => rfl, rfl, rfl, fun _ _ => rfl⟩

theorem exec_ldI (nnn : Addr) (s : State) :
    exec (.ldI nnn) s = .next { s with i := zextAddr nnn }.advance := rfl

/-- Settles O44: the word by its fields, and one write of I with the 12-bit literal, which is at most
0xFFF as a number of 12 bits. -/
theorem loadIndex : Obligations.LoadIndex := by
  intro nnn s
  have hi : { s with i := zextAddr nnn }.advance.i.toNat = nnn.toNat := by
    rw [State.advance_i, toNat_zextAddr]
  have hmax : nnn.toNat ≤ 0xFFF := Nat.le_of_lt_succ nnn.isLt
  exact ⟨toNat_wordNnn 0xA nnn, _, exec_ldI nnn s, s.frame_setIndex_advance (zextAddr nnn), hi,
    hi.trans_le hmax⟩

end Sys2Proof.Machine
end

section
/-! PROOFS. The decoder and the encoder (spec 30_encoding.md sections 1 and 2): each is the inverse
of the other, and the words of a row of the opcode map are those that match its fixed bits. -/

namespace Sys2Proof

/-! ## From an instruction to its word and back (R45, R47) -/

/-- A word of family 0x8 is decoded by its last digit. -/
theorem decode_wordXyN_8 (o : OrXor) (x y : Reg) (n : Nibble) :
    decode o (wordXyN 0x8 x y n) = decode8 o (wordXyN 0x8 x y n) := by simp [decode]

/-- A word of family 0xE is decoded by its low byte. -/
theorem decode_wordXKk_E (o : OrXor) (x : Reg) (kk : Byte) :
    decode o (wordXKk 0xE x kk) = decodeE (wordXKk 0xE x kk) := by simp [decode]

/-- A word of family 0xF is decoded by its low byte. -/
theorem decode_wordXKk_F (o : OrXor) (x : Reg) (kk : Byte) :
    decode o (wordXKk 0xF x kk) = decodeF (wordXKk 0xF x kk) := by simp [decode]

/-- Settles O2: an encoder's word gives its fields back, and the fields that the family reads select
the constructor that was encoded. -/
theorem decodeInvertsEncode : Obligations.DecodeInvertsEncode := by
  intro o i
  cases i with
  | cls | ret => rfl
  | jp | call | seLit | sneLit | seReg | ldLit | addLit | sneReg | ldI | jpV0 | rnd | drw =>
    simp [encode, decode, Instr.wf]
  | ldReg | orReg | andReg | xorReg | addReg | subReg | shr =>
    exact (decode_wordXyN_8 o _ _ _).trans (by simp [decode8, Instr.wf])
  | skp | sknp => exact (decode_wordXKk_E o _ _).trans (by simp [decodeE, Instr.wf])
  | ldVxDt | ldVxKey | ldDtVx | ldStVx | addI | ldF | ldB | storeRegs | loadRegs =>
    exact (decode_wordXKk_F o _ _).trans (by simp [decodeF, Instr.wf])

/-- The word of an instruction of the configuration decodes to it. -/
theorem decode_encode {o : OrXor} {i : Instr} (h : i.wf o = true) :
    decode o (encode i) = some i := by
  rw [decodeInvertsEncode, if_pos h]

/-! ## From a word to its instruction and back (R48, R49) -/

theorem wordNnn_of_fieldOp {w : Word} (op : Nibble) (h : (fieldOp w).toNat = op.toNat) :
    wordNnn op (fieldNnn w) = w := by
  rw [← BitVec.eq_of_toNat_eq h, wordNnn_fields]

theorem wordXKk_of_fieldOp {w : Word} (op : Nibble) (h : (fieldOp w).toNat = op.toNat) :
    wordXKk op (fieldX w) (fieldKk w) = w := by
  rw [← BitVec.eq_of_toNat_eq h, wordXKk_fields]

theorem wordXyN_of_fieldOp {w : Word} (op : Nibble) (h : (fieldOp w).toNat = op.toNat) :
    wordXyN op (fieldX w) (fieldY w) (fieldN w) = w := by
  rw [← BitVec.eq_of_toNat_eq h, wordXyN_fields]

theorem wordXKk_of_fields {w : Word} (op : Nibble) (kk : Byte)
    (h : (fieldOp w).toNat = op.toNat) (hk : (fieldKk w).toNat = kk.toNat) :
    wordXKk op (fieldX w) kk = w := by
  rw [← BitVec.eq_of_toNat_eq hk, wordXKk_of_fieldOp op h]

theorem wordXyN_of_fields {w : Word} (op n : Nibble)
    (h : (fieldOp w).toNat = op.toNat) (hn : (fieldN w).toNat = n.toNat) :
    wordXyN op (fieldX w) (fieldY w) n = w := by
  rw [← BitVec.eq_of_toNat_eq hn, wordXyN_of_fieldOp op h]

theorem encode_of_decode0 {w : Word} {i : Instr} (h : decode0 w = some i) :
    encode i = w ∧ ∀ o, i.wf o = true := by
  unfold decode0 at h
  split at h
  · cases h; exact ⟨Eq.symm ‹_›, fun _ => rfl⟩
  · split at h <;> cases h
    exact ⟨Eq.symm ‹_›, fun _ => rfl⟩

theorem encode_of_decode8 {o : OrXor} {w : Word} {i : Instr} (hop : (fieldOp w).toNat = 8)
    (h : decode8 o w = some i) : encode i = w ∧ i.wf o = true := by
  unfold decode8 at h
  split at h
  case h_1 hn => cases h; exact ⟨wordXyN_of_fields 0x8 0x0 hop hn, rfl⟩
  case h_2 hn =>
    split at h <;> cases h
    exact ⟨wordXyN_of_fields 0x8 0x1 hop hn, decide_eq_true ‹_›⟩
  case h_3 hn => cases h; exact ⟨wordXyN_of_fields 0x8 0x2 hop hn, rfl⟩
  case h_4 hn =>
    split at h <;> cases h
    exact ⟨wordXyN_of_fields 0x8 0x3 hop hn, decide_eq_true ‹_›⟩
  case h_5 hn => cases h; exact ⟨wordXyN_of_fields 0x8 0x4 hop hn, rfl⟩
  case h_6 hn => cases h; exact ⟨wordXyN_of_fields 0x8 0x5 hop hn, rfl⟩
  case h_7 hn => cases h; exact ⟨wordXyN_of_fields 0x8 0x6 hop hn, rfl⟩
  case h_8 => cases h

theorem encode_of_decodeE {w : Word} {i : Instr} (hop : (fieldOp w).toNat = 14)
    (h : decodeE w = some i) : encode i = w ∧ ∀ o, i.wf o = true := by
  unfold decodeE at h
  split at h
  case h_1 hk => cases h; exact ⟨wordXKk_of_fields 0xE 0x9E hop hk, fun _ => rfl⟩
  case h_2 hk => cases h; exact ⟨wordXKk_of_fields 0xE 0xA1 hop hk, fun _ => rfl⟩
  case h_3 => cases h

theorem encode_of_decodeF {w : Word} {i : Instr} (hop : (fieldOp w).toNat = 15)
    (h : decodeF w = some i) : encode i = w ∧ ∀ o, i.wf o = true := by
  unfold decodeF at h
  split at h
  case h_1 hk => cases h; exact ⟨wordXKk_of_fields 0xF 0x07 hop hk, fun _ => rfl⟩
  case h_2 hk => cases h; exact ⟨wordXKk_of_fields 0xF 0x0A hop hk, fun _ => rfl⟩
  case h_3 hk => cases h; exact ⟨wordXKk_of_fields 0xF 0x15 hop hk, fun _ => rfl⟩
  case h_4 hk => cases h; exact ⟨wordXKk_of_fields 0xF 0x18 hop hk, fun _ => rfl⟩
  case h_5 hk => cases h; exact ⟨wordXKk_of_fields 0xF 0x1E hop hk, fun _ => rfl⟩
  case h_6 hk => cases h; exact ⟨wordXKk_of_fields 0xF 0x29 hop hk, fun _ => rfl⟩
  case h_7 hk => cases h; exact ⟨wordXKk_of_fields 0xF 0x33 hop hk, fun _ => rfl⟩
  case h_8 hk => cases h; exact ⟨wordXKk_of_fields 0xF 0x55 hop hk, fun _ => rfl⟩
  case h_9 hk => cases h; exact ⟨wordXKk_of_fields 0xF 0x65 hop hk, fun _ => rfl⟩
  case h_10 => cases h

/-- Settles O3, family by family: the digits that selected the constructor and the fields it took as
operands are the whole word. -/
theorem encodeInvertsDecode : Obligations.EncodeInvertsDecode := by
  intro o w i h
  unfold decode at h
  split at h
  case h_1 => exact (encode_of_decode0 h).imp_right fun hwf => hwf o
  case h_2 hop => cases h; exact ⟨wordNnn_of_fieldOp 0x1 hop, rfl⟩
  case h_3 hop => cases h; exact ⟨wordNnn_of_fieldOp 0x2 hop, rfl⟩
  case h_4 hop => cases h; exact ⟨wordXKk_of_fieldOp 0x3 hop, rfl⟩
  case h_5 hop => cases h; exact ⟨wordXKk_of_fieldOp 0x4 hop, rfl⟩
  case h_6 hop =>
    split at h <;> cases h
    exact ⟨wordXyN_of_fields 0x5 0x0 hop (congrArg BitVec.toNat ‹_›), rfl⟩
  case h_7 hop => cases h; exact ⟨wordXKk_of_fieldOp 0x6 hop, rfl⟩
  case h_8 hop => cases h; exact ⟨wordXKk_of_fieldOp 0x7 hop, rfl⟩
  case h_9 hop => exact encode_of_decode8 hop h
  case h_10 hop =>
    split at h <;> cases h
    exact ⟨wordXyN_of_fields 0x9 0x0 hop (congrArg BitVec.toNat ‹_›), rfl⟩
  case h_11 hop => cases h; exact ⟨wordNnn_of_fieldOp 0xA hop, rfl⟩
  case h_12 hop => cases h; exact ⟨wordNnn_of_fieldOp 0xB hop, rfl⟩
  case h_13 hop => cases h; exact ⟨wordXKk_of_fieldOp 0xC hop, rfl⟩
  case h_14 hop => cases h; exact ⟨wordXyN_of_fieldOp 0xD hop, rfl⟩
  case h_15 hop => exact (encode_of_decodeE hop h).imp_right fun hwf => hwf o
  case h_16 hop => exact (encode_of_decodeF hop h).imp_right fun hwf => hwf o
  case h_17 => cases h

/-- Whatever decodes encodes to the word it was decoded from. -/
theorem encode_of_decode {o : OrXor} {w : Word} {i : Instr} (h : decode o w = some i) :
    encode i = w := (encodeInvertsDecode o w i h).1

/-! ## The rows of the opcode map (R47, R48) -/

/-- Every instruction's word carries the fixed bits of its row. -/
theorem encode_and_fixedMask : ∀ i : Instr, encode i &&& i.fixedMask = i.fixedBits
  | .cls => Laws.FixedBits.cls
  | .ret => Laws.FixedBits.ret
  | .jp nnn => Laws.FixedBits.jp nnn
  | .call nnn => Laws.FixedBits.call nnn
  | .seLit x kk => Laws.FixedBits.seLit x kk
  | .sneLit x kk => Laws.FixedBits.sneLit x kk
  | .seReg x y => Laws.FixedBits.seReg x y
  | .ldLit x kk => Laws.FixedBits.ldLit x kk
  | .addLit x kk => Laws.FixedBits.addLit x kk
  | .ldReg x y => Laws.FixedBits.ldReg x y
  | .orReg x y => Laws.FixedBits.orReg x y
  | .andReg x y => Laws.FixedBits.andReg x y
  | .xorReg x y => Laws.FixedBits.xorReg x y
  | .addReg x y => Laws.FixedBits.addReg x y
  | .subReg x y => Laws.FixedBits.subReg x y
  | .shr x y => Laws.FixedBits.shr x y
  | .sneReg x y => Laws.FixedBits.sneReg x y
  | .ldI nnn => Laws.FixedBits.ldI nnn
  | .jpV0 nnn => Laws.FixedBits.jpV0 nnn
  | .rnd x kk => Laws.FixedBits.rnd x kk
  | .drw x y n => Laws.FixedBits.drw x y n
  | .skp x => Laws.FixedBits.skp x
  | .sknp x => Laws.FixedBits.sknp x
  | .ldVxDt x => Laws.FixedBits.ldVxDt x
  | .ldVxKey x => Laws.FixedBits.ldVxKey x
  | .ldDtVx x => Laws.FixedBits.ldDtVx x
  | .ldStVx x => Laws.FixedBits.ldStVx x
  | .addI x => Laws.FixedBits.addI x
  | .ldF x => Laws.FixedBits.ldF x
  | .ldB x => Laws.FixedBits.ldB x
  | .storeRegs x => Laws.FixedBits.storeRegs x
  | .loadRegs x => Laws.FixedBits.loadRegs x

/-- Which bits are fixed in the rows of a family, by the first digit of the row's match (R47). -/
def familyMask (bits : Word) : Word :=
  match (fieldOp bits).toNat with
  | 0x0 => 0xFFFF
  | 0x5 | 0x8 | 0x9 => 0xF00F
  | 0xE | 0xF => 0xF0FF
  | _ => 0xF000

theorem fixedMask_eq_familyMask (i : Instr) : i.fixedMask = familyMask i.fixedBits := by
  cases i <;> simp [Instr.fixedMask, Instr.fixedBits, familyMask, fieldOp]

/-- A word that matches a row with the mask F000 is the row's family digit and an address. -/
theorem wordNnn_of_and {w : Word} {op : Nibble} (h : w &&& 0xF000 = wordNnn op 0) :
    wordNnn op (fieldNnn w) = w := by
  rw [← wordNnn_fields w, Laws.wordNnn_and] at h
  have hop : fieldOp w = op := by simpa using congrArg fieldOp h
  rw [← hop, wordNnn_fields]

/-- A word that matches a row with the mask F000 is the row's family digit, a register and a
byte. -/
theorem wordXKk_of_and_op {w : Word} {op : Nibble} (h : w &&& 0xF000 = wordXKk op 0 0) :
    wordXKk op (fieldX w) (fieldKk w) = w := by
  rw [← wordXKk_fields w, Laws.wordXKk_and_op] at h
  have hop : fieldOp w = op := by simpa using congrArg fieldOp h
  rw [← hop, wordXKk_fields]

/-- A word that matches a row with the mask F0FF is the row's three digits and a register. -/
theorem wordXKk_of_and {w : Word} {op : Nibble} {kk : Byte}
    (h : w &&& 0xF0FF = wordXKk op 0 kk) : wordXKk op (fieldX w) kk = w := by
  rw [← wordXKk_fields w, Laws.wordXKk_and] at h
  have hop : fieldOp w = op := by simpa using congrArg fieldOp h
  have hkk : fieldKk w = kk := by simpa using congrArg fieldKk h
  rw [← hop, ← hkk, wordXKk_fields]

/-- A word that matches a row with the mask F00F is the row's two digits and two registers. -/
theorem wordXyN_of_and {w : Word} {op n : Nibble} (h : w &&& 0xF00F = wordXyN op 0 0 n) :
    wordXyN op (fieldX w) (fieldY w) n = w := by
  rw [← wordXyN_fields w, Laws.wordXyN_and] at h
  have hop : fieldOp w = op := by simpa using congrArg fieldOp h
  have hn : fieldN w = n := by simpa using congrArg fieldN h
  rw [← hop, ← hn, wordXyN_fields]

/-- A word that matches the row of Dxyn is its family digit, two registers and a nibble. -/
theorem wordXyN_of_and_op {w : Word} {op : Nibble} (h : w &&& 0xF000 = wordXyN op 0 0 0) :
    wordXyN op (fieldX w) (fieldY w) (fieldN w) = w := by
  rw [← wordXyN_fields w, Laws.wordXyN_and_op] at h
  have hop : fieldOp w = op := by simpa using congrArg fieldOp h
  rw [← hop, wordXyN_fields]

/-- A word that matches an instruction's row is the word of an instruction of that row: the same one
with the word's fields as its operands. -/
theorem exists_encode_of_fixedBits {i : Instr} {w : Word} (h : w &&& i.fixedMask = i.fixedBits) :
    ∃ j, encode j = w ∧ j.fixedBits = i.fixedBits ∧ ∀ o, j.wf o = i.wf o := by
  cases i with
  | cls => exact ⟨.cls, (BitVec.and_allOnes.symm.trans h).symm, rfl, fun _ => rfl⟩
  | ret => exact ⟨.ret, (BitVec.and_allOnes.symm.trans h).symm, rfl, fun _ => rfl⟩
  | jp nnn => exact ⟨.jp _, wordNnn_of_and h, rfl, fun _ => rfl⟩
  | call nnn => exact ⟨.call _, wordNnn_of_and h, rfl, fun _ => rfl⟩
  | seLit x kk => exact ⟨.seLit _ _, wordXKk_of_and_op h, rfl, fun _ => rfl⟩
  | sneLit x kk => exact ⟨.sneLit _ _, wordXKk_of_and_op h, rfl, fun _ => rfl⟩
  | seReg x y => exact ⟨.seReg _ _, wordXyN_of_and h, rfl, fun _ => rfl⟩
  | ldLit x kk => exact ⟨.ldLit _ _, wordXKk_of_and_op h, rfl, fun _ => rfl⟩
  | addLit x kk => exact ⟨.addLit _ _, wordXKk_of_and_op h, rfl, fun _ => rfl⟩
  | ldReg x y => exact ⟨.ldReg _ _, wordXyN_of_and h, rfl, fun _ => rfl⟩
  | orReg x y => exact ⟨.orReg _ _, wordXyN_of_and h, rfl, fun _ => rfl⟩
  | andReg x y => exact ⟨.andReg _ _, wordXyN_of_and h, rfl, fun _ => rfl⟩
  | xorReg x y => exact ⟨.xorReg _ _, wordXyN_of_and h, rfl, fun _ => rfl⟩
  | addReg x y => exact ⟨.addReg _ _, wordXyN_of_and h, rfl, fun _ => rfl⟩
  | subReg x y => exact ⟨.subReg _ _, wordXyN_of_and h, rfl, fun _ => rfl⟩
  | shr x y => exact ⟨.shr _ _, wordXyN_of_and h, rfl, fun _ => rfl⟩
  | sneReg x y => exact ⟨.sneReg _ _, wordXyN_of_and h, rfl, fun _ => rfl⟩
  | ldI nnn => exact ⟨.ldI _, wordNnn_of_and h, rfl, fun _ => rfl⟩
  | jpV0 nnn => exact ⟨.jpV0 _, wordNnn_of_and h, rfl, fun _ => rfl⟩
  | rnd x kk => exact ⟨.rnd _ _, wordXKk_of_and_op h, rfl, fun _ => rfl⟩
  | drw x y n => exact ⟨.drw _ _ _, wordXyN_of_and_op h, rfl, fun _ => rfl⟩
  | skp x => exact ⟨.skp _, wordXKk_of_and h, rfl, fun _ => rfl⟩
  | sknp x => exact ⟨.sknp _, wordXKk_of_and h, rfl, fun _ => rfl⟩
  | ldVxDt x => exact ⟨.ldVxDt _, wordXKk_of_and h, rfl, fun _ => rfl⟩
  | ldVxKey x => exact ⟨.ldVxKey _, wordXKk_of_and h, rfl, fun _ => rfl⟩
  | ldDtVx x => exact ⟨.ldDtVx _, wordXKk_of_and h, rfl, fun _ => rfl⟩
  | ldStVx x => exact ⟨.ldStVx _, wordXKk_of_and h, rfl, fun _ => rfl⟩
  | addI x => exact ⟨.addI _, wordXKk_of_and h, rfl, fun _ => rfl⟩
  | ldF x => exact ⟨.ldF _, wordXKk_of_and h, rfl, fun _ => rfl⟩
  | ldB x => exact ⟨.ldB _, wordXKk_of_and h, rfl, fun _ => rfl⟩
  | storeRegs x => exact ⟨.storeRegs _, wordXKk_of_and h, rfl, fun _ => rfl⟩
  | loadRegs x => exact ⟨.loadRegs _, wordXKk_of_and h, rfl, fun _ => rfl⟩

/-- Settles O4: a matching word is the word of an instruction of the row, and an instruction whose
match is the row's has the row's mask. -/
theorem decodeMatchesFixedBits : Obligations.DecodeMatchesFixedBits := by
  intro o i w hwf
  constructor
  · intro h
    obtain ⟨j, rfl, hbits, hj⟩ := exists_encode_of_fixedBits h
    exact ⟨j, decode_encode ((hj o).trans hwf), hbits⟩
  · rintro ⟨j, hdec, hbits⟩
    have hmask : i.fixedMask = j.fixedMask := by
      rw [fixedMask_eq_familyMask, fixedMask_eq_familyMask, hbits]
    rw [← encode_of_decode hdec, hmask, ← hbits]
    exact encode_and_fixedMask j

/-! ## Bytes (R33, R52) -/

/-- Settles O5: the two bytes are the high and the low half of the word, and together they are the
word again. -/
theorem encodedBytesDecode : Obligations.EncodedBytesDecode := by
  intro o i rest hwf
  constructor
  · rw [encodeBytes, List.map_cons, List.map_singleton, toNat_highByte, toNat_lowByte]
  · show (decode o (wordOfBytes (highByte (encode i)) (lowByte (encode i)))).map _ = _
    rw [wordOfBytes_bytes, decode_encode hwf]
    rfl

/-- Settles O1: the sample words, each decoded by evaluation. -/
theorem sampleWordsDecode : Obligations.SampleWordsDecode := by
  unfold Obligations.SampleWordsDecode
  decide

end Sys2Proof
end

section
/-! PROOFS. What an instruction does, said once (spec 40_engine_cycle.md section 3, 60_exceptions.md
section 2): in every state it either raises the one fault whose condition holds, or completes with
its writes made, the PC of the table and its step result. -/

namespace Sys2Proof.Machine

/-! ## The writes of an instruction, and the state it completes in -/

/-- The pixels the 1 bits of Dxyn's sprite land on (R95, R97). -/
def State.litPixels (s : State) (x y : Reg) (n : Nibble) : List (Fin 32 × Fin 64) :=
  spritePixels s.params.drawEdge (s.getV y).toNat (s.getV x).toNat (s.readBytes s.i n.toNat)

/-- The framebuffer Dxyn leaves, and whether a pixel collided (R99). -/
def State.drawn (s : State) (x y : Reg) (n : Nibble) : Screen × Bool :=
  drawPixels s.fb (s.litPixels x y n)

/-- The state with the instruction's writes made, PC and the step result not yet set. -/
def State.effect (s : State) : Instr → State
  | .cls => { s with fb := blankScreen }
  | .ret => (s.pop.map Prod.snd).getD s
  | .call _ => (s.push s.pc).getD s
  | .jp _ | .jpV0 _ | .seLit _ _ | .sneLit _ _ | .seReg _ _ | .sneReg _ _ | .skp _ | .sknp _ => s
  | .ldLit x kk => s.setV x kk
  | .addLit x kk => s.setV x (s.getV x + kk)
  | .ldReg x y => s.setV x (s.getV y)
  | .orReg x y => s.setV x (s.getV x ||| s.getV y)
  | .andReg x y => s.setV x (s.getV x &&& s.getV y)
  | .xorReg x y => s.setV x (s.getV x ^^^ s.getV y)
  | .addReg x y => s.writeResultAndFlag x (s.getV x + s.getV y) (carryFlag (s.getV x) (s.getV y))
  | .subReg x y => s.writeResultAndFlag x (s.getV x - s.getV y)
      (notBorrowFlag s.params.subFlag (s.getV x) (s.getV y))
  | .shr x _ => s.writeResultAndFlag x (s.getV x >>> 1) (shiftedOutFlag (s.getV x))
  | .ldI nnn => { s with i := zextAddr nnn }
  | .rnd x kk => { s.setV x (Config.rng s.draws &&& kk) with draws := s.draws + 1 }
  | .drw x y n => { s with fb := (s.drawn x y n).1 }.setV vf (flagByte (s.drawn x y n).2)
  | .ldVxDt x => s.setV x s.dt
  | .ldVxKey x => { s with mode := .awaitingKey x s.keys }
  | .ldDtVx x => { s with dt := s.getV x }
  | .ldStVx x => { s with st := s.getV x }
  | .addI x => { s with i := addIndex s.params.addIWidth s.i (s.getV x) }
  | .ldF x => { s with i := glyphAddr (s.getV x) }
  | .ldB x => s.writeBytes s.i (bcdDigits (s.getV x))
  | .storeRegs x => s.writeBytes s.i (s.regsUpTo x)
  | .loadRegs x => s.loadUpTo x

/-- What the step that completes an instruction reports (R62, D35). -/
def resultAfter (s : State) : Instr → StepResult
  | .cls | .drw _ _ _ => { StepResult.quiet with draw := true }
  | .ldVxKey _ => { StepResult.quiet with waiting := true }
  | .jp nnn => { StepResult.quiet with
      selfJump := decide (s.params.selfJump = .on) && decide (zextAddr nnn = s.pc) }
  | .ret | .call _ | .seLit _ _ | .sneLit _ _ | .seReg _ _ | .ldLit _ _ | .addLit _ _ | .ldReg _ _
  | .orReg _ _ | .andReg _ _ | .xorReg _ _ | .addReg _ _ | .subReg _ _ | .shr _ _ | .sneReg _ _
  | .ldI _ | .jpV0 _ | .rnd _ _ | .skp _ | .sknp _ | .ldVxDt _ | .ldDtVx _ | .ldStVx _ | .addI _
  | .ldF _ | .ldB _ | .storeRegs _ | .loadRegs _ => StepResult.quiet

/-- The state an instruction completes in. -/
def State.completed (s : State) (i : Instr) : State :=
  { s.effect i with pc := pcAfter s i, result := resultAfter s i }

@[simp] theorem State.completed_pc (s : State) (i : Instr) : (s.completed i).pc = pcAfter s i := rfl
@[simp] theorem State.completed_result (s : State) (i : Instr) :
    (s.completed i).result = resultAfter s i := rfl
@[simp] theorem State.completed_getV (s : State) (i : Instr) (r : Reg) :
    (s.completed i).getV r = (s.effect i).getV r := rfl
@[simp] theorem State.completed_readByte (s : State) (i : Instr) (a : Word) :
    (s.completed i).readByte a = (s.effect i).readByte a := rfl

/-- An instruction that completes reports no fault. -/
@[simp] theorem resultAfter_fault (s : State) (i : Instr) : (resultAfter s i).fault = none := by
  cases i <;> rfl

/-- Only 00E0 and Dxyn set the draw flag (D34). -/
theorem resultAfter_draw (s : State) (i : Instr) :
    (resultAfter s i).draw = true ↔ i = .cls ∨ ∃ x y n, i = .drw x y n := by
  cases i <;> simp [resultAfter, StepResult.quiet]

/-- Only Fx0A reports that the engine waits (D35). -/
theorem resultAfter_waiting (s : State) (i : Instr) :
    (resultAfter s i).waiting = true ↔ ∃ x, i = .ldVxKey x := by
  cases i <;> simp [resultAfter, StepResult.quiet]

/-- Only a jump to itself under P_SELF_JUMP = on reports a self-jump (D10). -/
theorem resultAfter_selfJump (s : State) (i : Instr) :
    (resultAfter s i).selfJump = true ↔
      s.params.selfJump = .on ∧ ∃ nnn, i = .jp nnn ∧ zextAddr nnn = s.pc := by
  cases i <;> simp [resultAfter, StepResult.quiet]

/-! ## An instruction completes or faults -/

/-- Completing with PC + 2, from writes that leave PC alone. -/
theorem State.advance_eq {s t : State} (h : t.pc = s.pc) :
    t.advance = { t with pc := s.pc + 2, result := StepResult.quiet } := by
  rw [State.advance, State.complete, h]

/-- A skip on a condition. -/
theorem State.skipIf_decide (s : State) (p : Prop) [Decidable p] :
    s.skipIf (decide p) =
      { s with pc := s.pc + (if p then 4 else 2), result := StepResult.quiet } := by
  by_cases h : p <;> simp [State.skipIf, State.complete, h]

/-- A skip on a condition that does not hold. -/
theorem State.skipIf_decide_not (s : State) (p : Prop) [Decidable p] :
    s.skipIf (decide (¬ p)) =
      { s with pc := s.pc + (if p then 2 else 4), result := StepResult.quiet } := by
  by_cases h : p <;> simp [State.skipIf, State.complete, h]

theorem exec_seLit (x : Reg) (kk : Byte) (s : State) :
    exec (.seLit x kk) s = .next (s.completed (.seLit x kk)) :=
  congrArg Host.Outcome.next (s.skipIf_decide (s.getV x = kk))

theorem exec_sneLit (x : Reg) (kk : Byte) (s : State) :
    exec (.sneLit x kk) s = .next (s.completed (.sneLit x kk)) :=
  congrArg Host.Outcome.next (s.skipIf_decide_not (s.getV x = kk))

theorem exec_seReg (x y : Reg) (s : State) :
    exec (.seReg x y) s = .next (s.completed (.seReg x y)) :=
  congrArg Host.Outcome.next (s.skipIf_decide (s.getV x = s.getV y))

theorem exec_sneReg (x y : Reg) (s : State) :
    exec (.sneReg x y) s = .next (s.completed (.sneReg x y)) :=
  congrArg Host.Outcome.next (s.skipIf_decide_not (s.getV x = s.getV y))

theorem exec_addReg (x y : Reg) (s : State) :
    exec (.addReg x y) s = .next (s.completed (.addReg x y)) :=
  congrArg Host.Outcome.next (State.advance_eq (State.writeResultAndFlag_pc s x _ _))

theorem exec_subReg (x y : Reg) (s : State) :
    exec (.subReg x y) s = .next (s.completed (.subReg x y)) :=
  congrArg Host.Outcome.next (State.advance_eq (State.writeResultAndFlag_pc s x _ _))

theorem exec_shr (x y : Reg) (s : State) :
    exec (.shr x y) s = .next (s.completed (.shr x y)) :=
  congrArg Host.Outcome.next (State.advance_eq (State.writeResultAndFlag_pc s x _ _))

theorem exec_ldB (x : Reg) (s : State) : exec (.ldB x) s = .next (s.completed (.ldB x)) :=
  congrArg Host.Outcome.next (State.advance_eq (State.writeBytes_pc _ s s.i))

theorem exec_storeRegs (x : Reg) (s : State) :
    exec (.storeRegs x) s = .next (s.completed (.storeRegs x)) :=
  congrArg Host.Outcome.next (State.advance_eq (State.writeBytes_pc _ s s.i))

/-- CALL with a free slot completes (R68). -/
theorem exec_call {s : State} (nnn : Addr) (h : s.sp.val ≠ 16) :
    exec (.call nnn) s = .next (s.completed (.call nnn)) := by
  obtain ⟨t, ht⟩ := Option.ne_none_iff_exists'.mp (mt (State.push_eq_none (a := s.pc)).mp h)
  simp [exec, execCall, State.completed, State.effect, ht, State.complete, pcAfter, resultAfter]

/-- RET with an occupied slot completes (R66). -/
theorem exec_ret {s : State} (h : s.sp.val ≠ 0) :
    exec .ret s = .next (s.completed .ret) := by
  obtain ⟨⟨a, t⟩, hpop⟩ := Option.ne_none_iff_exists'.mp (mt State.pop_eq_none.mp h)
  obtain ⟨_, rfl, _⟩ := State.pop_eq_some hpop
  simp [exec, execRet, State.completed, State.effect, hpop, State.complete, pcAfter, resultAfter, h]

/-- RET with no occupied slot completes under P_RET_UNDERFLOW = pop_zero (D4). -/
theorem exec_ret_popZero {s : State} (h : s.sp.val = 0) (hp : s.params.retUnderflow = .popZero) :
    exec .ret s = .next (s.completed .ret) := by
  have hpop := State.pop_eq_none.mpr h
  simp [exec, execRet, State.completed, State.effect, hpop, hp, State.complete, pcAfter,
    resultAfter, h]

/-- A key skip on a key completes (R101). -/
theorem exec_skp {s : State} {x : Reg} (h : ¬ (s.getV x).toNat > 0xF) :
    exec (.skp x) s = .next (s.completed (.skp x)) := by
  obtain ⟨k, hk⟩ := Option.ne_none_iff_exists'.mp (mt keyOfByte_eq_none.mp h)
  simp [exec, execSkp, State.completed, State.effect, hk, State.skipIf, State.complete, pcAfter,
    resultAfter]

/-- A key skip on a key completes (R102). -/
theorem exec_sknp {s : State} {x : Reg} (h : ¬ (s.getV x).toNat > 0xF) :
    exec (.sknp x) s = .next (s.completed (.sknp x)) := by
  obtain ⟨k, hk⟩ := Option.ne_none_iff_exists'.mp (mt keyOfByte_eq_none.mp h)
  simp [exec, execSknp, State.completed, State.effect, hk, State.skipIf, State.complete, pcAfter,
    resultAfter]
  split <;> simp [*]

/-- Fx29 completes but for a large digit under P_FONT_DIGIT = fault (R90). -/
theorem exec_ldF {s : State} {x : Reg}
    (h : ¬ ((s.getV x).toNat > 0xF ∧ s.params.fontDigit = .fault)) :
    exec (.ldF x) s = .next (s.completed (.ldF x)) :=
  if_neg h

/-- An instruction whose fault conditions do not hold completes. -/
theorem exec_eq_completed {i : Instr} {s : State}
    (h : ∀ kind value, ¬ RaisesFault i s kind value) : exec i s = .next (s.completed i) := by
  cases i with
  | cls | jp | jpV0 | ldLit | addLit | ldReg | orReg | andReg | xorReg | ldI | rnd | drw | ldVxDt
  | ldVxKey | ldDtVx | ldStVx | addI | loadRegs => rfl
  | seLit x kk => exact exec_seLit x kk s
  | sneLit x kk => exact exec_sneLit x kk s
  | seReg x y => exact exec_seReg x y s
  | sneReg x y => exact exec_sneReg x y s
  | addReg x y => exact exec_addReg x y s
  | subReg x y => exact exec_subReg x y s
  | shr x y => exact exec_shr x y s
  | ldB x => exact exec_ldB x s
  | storeRegs x => exact exec_storeRegs x s
  | call nnn => exact exec_call nnn fun h16 => h .stackOverflow none ⟨⟨nnn, rfl⟩, h16, rfl⟩
  | ret =>
    by_cases h0 : s.sp.val = 0
    · cases hp : s.params.retUnderflow with
      | fault => exact absurd ⟨rfl, h0, hp, rfl⟩ (h .stackUnderflow none)
      | popZero => exact exec_ret_popZero h0 hp
    · exact exec_ret h0
  | skp x => exact exec_skp fun hk => h .invalidKeyIndex _ ⟨x, .inl rfl, rfl, hk⟩
  | sknp x => exact exec_sknp fun hk => h .invalidKeyIndex _ ⟨x, .inr rfl, rfl, hk⟩
  | ldF x => exact exec_ldF fun hk => h .invalidFontDigit _ ⟨x, rfl, rfl, hk⟩

/-- An instruction whose fault condition holds raises that fault. -/
theorem exec_eq_raise {i : Instr} {s : State} {kind : FaultKind} {value : Option Byte}
    (h : RaisesFault i s kind value) : exec i s = .next (s.raise kind (encode i) value) := by
  cases kind with
  | unknownOpcode => exact h.elim
  | invalidKeyIndex =>
    obtain ⟨x, rfl | rfl, rfl, hk⟩ := h
    · simp [exec, execSkp, keyOfByte_eq_none.mpr hk]
    · simp [exec, execSknp, keyOfByte_eq_none.mpr hk]
  | stackOverflow =>
    obtain ⟨⟨nnn, rfl⟩, hsp, rfl⟩ := h
    simp [exec, execCall, State.push_eq_none.mpr hsp]
  | stackUnderflow =>
    obtain ⟨rfl, hsp, hp, rfl⟩ := h
    simp [exec, execRet, State.pop_eq_none.mpr hsp, hp]
  | invalidFontDigit =>
    obtain ⟨x, rfl, rfl, hk⟩ := h
    exact if_pos hk

/-- Everything an instruction can do. -/
theorem exec_completed_or_raise (i : Instr) (s : State) :
    exec i s = .next (s.completed i) ∨
      ∃ kind value, RaisesFault i s kind value ∧
        exec i s = .next (s.raise kind (encode i) value) := by
  by_cases h : ∃ kind value, RaisesFault i s kind value
  · obtain ⟨kind, value, hf⟩ := h
    exact .inr ⟨kind, value, hf, exec_eq_raise hf⟩
  · exact .inl (exec_eq_completed fun kind value hf => h ⟨kind, value, hf⟩)

/-- An instruction that reports no fault has completed. -/
theorem eq_completed_of_exec {i : Instr} {s t : State} (h : exec i s = .next t)
    (hq : t.result.fault = none) : t = s.completed i := by
  obtain hc | ⟨kind, value, -, hr⟩ := exec_completed_or_raise i s
  · exact Host.Outcome.next.inj (h.symm.trans hc)
  · rw [Host.Outcome.next.inj (h.symm.trans hr)] at hq
    cases hq

/-- Settles O17: an instruction without a fault has completed, with the PC of the table. -/
theorem pcFollowsTable : Obligations.PcFollowsTable := by
  intro i s t h hq
  rw [eq_completed_of_exec h hq, State.completed_pc]

/-! ## The frame of an instruction -/

theorem Frame.refl (c : MayChange) (s : State) : Frame c s s :=
  ⟨fun _ _ => rfl, fun _ => rfl, fun _ => ⟨rfl, rfl⟩, fun _ => rfl, fun _ => rfl, fun _ => rfl,
    fun _ => rfl, fun _ => rfl, rfl, rfl, fun _ _ => rfl⟩

/-- A change of the screen is within a frame that names it. -/
theorem State.frame_screen (s : State) (fb : Screen) :
    Frame { screen := true } s { s with fb := fb } :=
  ⟨fun _ _ => rfl, fun _ => rfl, fun _ => ⟨rfl, rfl⟩, fun _ => rfl, fun _ => rfl, nofun,
    fun _ => rfl, fun _ => rfl, rfl, rfl, fun _ _ => rfl⟩

theorem State.frame_mode (s : State) (m : Mode) : Frame { mode := true } s { s with mode := m } :=
  ⟨fun _ _ => rfl, fun _ => rfl, fun _ => ⟨rfl, rfl⟩, fun _ => rfl, fun _ => rfl, fun _ => rfl,
    nofun, fun _ => rfl, rfl, rfl, fun _ _ => rfl⟩

theorem State.frame_index (s : State) (a : Word) :
    Frame { index := true } s { s with i := a } := s.frame_setIndex_advance a

theorem State.frame_dt (s : State) (b : Byte) : Frame { dt := true } s { s with dt := b } :=
  ⟨fun _ _ => rfl, fun _ => rfl, fun _ => ⟨rfl, rfl⟩, nofun, fun _ => rfl, fun _ => rfl,
    fun _ => rfl, fun _ => rfl, rfl, rfl, fun _ _ => rfl⟩

theorem State.frame_st (s : State) (b : Byte) : Frame { st := true } s { s with st := b } :=
  ⟨fun _ _ => rfl, fun _ => rfl, fun _ => ⟨rfl, rfl⟩, fun _ => rfl, nofun, fun _ => rfl,
    fun _ => rfl, fun _ => rfl, rfl, rfl, fun _ _ => rfl⟩

theorem State.frame_stack (s : State) (sp : Fin 17) (stack : Vector Word 16) :
    Frame { stack := true } s { s with sp := sp, stack := stack } :=
  ⟨fun _ _ => rfl, fun _ => rfl, nofun, fun _ => rfl, fun _ => rfl, fun _ => rfl,
    fun _ => rfl, fun _ => rfl, rfl, rfl, fun _ _ => rfl⟩

theorem State.frame_push (s : State) (a : Word) :
    Frame { stack := true } s ((s.push a).getD s) := by
  cases h : s.push a with
  | none => exact Frame.refl _ s
  | some t =>
    obtain ⟨_, rfl⟩ := State.push_eq_some h
    exact s.frame_stack _ _

theorem State.frame_pop (s : State) :
    Frame { stack := true } s ((s.pop.map Prod.snd).getD s) := by
  cases h : s.pop with
  | none => exact Frame.refl _ s
  | some p =>
    obtain ⟨_, _, ht⟩ := State.pop_eq_some h
    show Frame _ s p.2
    rw [ht]
    exact s.frame_stack _ s.stack

theorem State.frame_rnd (s : State) (x : Reg) (b : Byte) (k : Nat) :
    Frame { regs := [x], draws := true } s { s.setV x b with draws := k } :=
  ⟨fun _ hr => s.getV_setV_ne b (List.ne_of_not_mem_cons hr), fun _ => rfl, fun _ => ⟨rfl, rfl⟩,
    fun _ => rfl, fun _ => rfl, fun _ => rfl, fun _ => rfl, nofun, rfl, rfl, fun _ _ => rfl⟩

theorem State.frame_draw (s : State) (fb : Screen) (b : Byte) :
    Frame { regs := [vf], screen := true } s ({ s with fb := fb }.setV vf b) :=
  ⟨fun _ hr => { s with fb := fb }.getV_setV_ne b (List.ne_of_not_mem_cons hr), fun _ => rfl,
    fun _ => ⟨rfl, rfl⟩, fun _ => rfl, fun _ => rfl, nofun, fun _ => rfl, fun _ => rfl, rfl, rfl,
    fun _ _ => rfl⟩

theorem State.frame_writeResultAndFlag (s : State) (x : Reg) (r f : Byte) :
    Frame { regs := [x, vf] } s (s.writeResultAndFlag x r f) := by
  have hregs : ∀ q : Reg, q ∉ [x, vf] → (s.writeResultAndFlag x r f).getV q = s.getV q := by
    intro q hq
    simp only [List.mem_cons, List.not_mem_nil, or_false, not_or] at hq
    simp [State.getV_writeResultAndFlag, hq]
  exact ⟨hregs, fun _ => by simp, fun _ => by simp, fun _ => by simp, fun _ => by simp,
    fun _ => by simp, fun _ => by simp, fun _ => by simp, by simp, by simp, fun _ _ => by simp⟩

/-- A store changes the bytes it stores and no other part of the machine (R36). -/
theorem State.frame_writeBytes (s : State) (a : Word) (bs : List Byte) :
    Frame { stored := (a, bs.length) } s (s.writeBytes a bs) :=
  ⟨fun _ _ => by simp, fun _ => by simp, fun _ => by simp, fun _ => by simp, fun _ => by simp,
    fun _ => by simp, fun _ => by simp, fun _ => by simp, by simp, by simp,
    fun c hc => State.readByte_writeBytes_outside bs s a c hc⟩

theorem State.length_regsUpTo (s : State) (x : Reg) : (s.regsUpTo x).length = x.val + 1 := by
  have := x.isLt
  simp only [State.regsUpTo, List.length_take, Vector.length_toList]
  omega

theorem mem_regsTo {x r : Reg} : r ∈ regsTo x ↔ r ≤ x := by simp [regsTo]

theorem State.frame_loadUpTo (s : State) (x : Reg) :
    Frame { regs := regsTo x } s (s.loadUpTo x) := by
  have hregs : ∀ r : Reg, r ∉ regsTo x → (s.loadUpTo x).getV r = s.getV r := by
    intro r hr
    rw [State.getV_loadUpTo, if_neg (mt mem_regsTo.mpr hr)]
  exact ⟨hregs, fun _ => by simp, fun _ => by simp, fun _ => by simp, fun _ => by simp,
    fun _ => by simp, fun _ => by simp, fun _ => by simp, by simp, by simp, fun _ _ => by simp⟩

/-- The writes of an instruction are those the spec lists (R14, R16 to R24, R36). -/
theorem State.frame_effect (s : State) (i : Instr) : Frame (writesOf s i) s (s.effect i) := by
  cases i with
  | cls => exact s.frame_screen _
  | ret => exact s.frame_pop
  | call => exact s.frame_push _
  | jp | jpV0 | seLit | sneLit | seReg | sneReg | skp | sknp => exact Frame.refl _ s
  | ldLit | addLit | ldReg | orReg | andReg | xorReg | ldVxDt => exact s.frame_setV_advance _ _
  | addReg | subReg | shr => exact s.frame_writeResultAndFlag _ _ _
  | ldI | addI | ldF => exact s.frame_index _
  | rnd => exact s.frame_rnd _ _ _
  | drw => exact s.frame_draw _ _
  | ldVxKey => exact s.frame_mode _
  | ldDtVx => exact s.frame_dt _
  | ldStVx => exact s.frame_st _
  | ldB => exact s.frame_writeBytes _ _
  | storeRegs x =>
    have h := s.frame_writeBytes s.i (s.regsUpTo x)
    rwa [State.length_regsUpTo] at h
  | loadRegs => exact s.frame_loadUpTo _

/-- PC and the step result are in no frame, so completing keeps the frame of the writes. -/
theorem State.frame_completed (s : State) (i : Instr) :
    Frame (writesOf s i) s (s.completed i) := s.frame_effect i

/-- Settles O18: an instruction without a fault has completed, and its writes are those listed. -/
theorem instructionFrame : Obligations.InstructionFrame := by
  intro i s t h hq
  rw [eq_completed_of_exec h hq]
  exact s.frame_completed i

/-- A fault changes the mode and nothing else (R109). -/
theorem State.frame_raise (s : State) (kind : FaultKind) (op : Word) (value : Option Byte) :
    Frame { mode := true } s (s.raise kind op value) := s.frame_mode _

/-- An instruction that completes does so with the PC, the step result and the frame of its row. -/
theorem completes_of_exec {i : Instr} {s : State} {post : State → Prop}
    (h : exec i s = .next (s.completed i)) (hpost : post (s.completed i)) :
    Completes i s (writesOf s i) (pcAfter s i) (resultAfter s i) post :=
  ⟨s.completed i, h, rfl, rfl, s.frame_completed i, hpost⟩

/-- An instruction whose fault condition holds faults with it. -/
theorem faultsWith_of_raisesFault {i : Instr} {s : State} {kind : FaultKind}
    {value : Option Byte} (h : RaisesFault i s kind value) : FaultsWith i s kind value :=
  ⟨_, exec_eq_raise h, rfl, rfl, rfl, s.frame_raise kind (encode i) value⟩

/-- Settles O35: the conditions of the four operand faults. -/
theorem operandFaultsHalt : Obligations.OperandFaultsHalt := by
  refine ⟨fun nnn s hsp => ?call, fun s hsp hp => ?ret, fun x s hk => ⟨?skp, ?sknp⟩,
    fun x s hk hp => ?ldF⟩
  case call => exact faultsWith_of_raisesFault ⟨⟨nnn, rfl⟩, hsp, rfl⟩
  case ret => exact faultsWith_of_raisesFault ⟨rfl, hsp, hp, rfl⟩
  case skp => exact faultsWith_of_raisesFault ⟨x, .inl rfl, rfl, hk⟩
  case sknp => exact faultsWith_of_raisesFault ⟨x, .inr rfl, rfl, hk⟩
  case ldF => exact faultsWith_of_raisesFault ⟨x, rfl, rfl, hk, hp⟩

end Sys2Proof.Machine
end

section
/-! PROOFS. The step (spec 40_engine_cycle.md sections 1 and 4): everything a step can do, said
once, and what follows from it for the mode, the step result, the keys, the screen and the draws. -/

namespace Sys2Proof.Machine

/-! ## The step, by mode (R55) -/

/-- Settles O10: the running branch of the step. -/
theorem stepRunsDecodedInstruction : Obligations.StepRunsDecodedInstruction := by
  intro s i hm hd
  simp [step, hm, hd]

/-- Settles O11: the fault the step raises when decode answers nothing. -/
theorem unknownOpcodeHalts : Obligations.UnknownOpcodeHalts := by
  intro s hm hd
  exact ⟨_, _, step_unknown hm hd, rfl, rfl, rfl, rfl, rfl, rfl, rfl, rfl, s.frame_raise _ _ _⟩

/-- Settles O12: a halted engine only reports. -/
theorem haltedStepReportsAgain : Obligations.HaltedStepReportsAgain := by
  intro s f hm
  exact ⟨s.report f, step_halted hm, hm, rfl, rfl, Frame.refl {} s⟩

/-- Settles O13: the step answers a state in each mode, since every instruction does. -/
theorem stepAlwaysAnswersNext : Obligations.StepAlwaysAnswersNext := by
  intro s
  cases hm : s.mode with
  | halted f => exact ⟨_, step_halted hm⟩
  | awaitingKey x b => exact ⟨_, step_awaiting hm⟩
  | running =>
    cases hd : decode s.params.orXor (s.fetch s.pc) with
    | none => exact ⟨_, step_unknown hm hd⟩
    | some i =>
      rw [stepRunsDecodedInstruction s i hm hd]
      obtain hc | ⟨kind, value, -, hr⟩ := exec_completed_or_raise i s
      · exact ⟨_, hc⟩
      · exact ⟨_, hr⟩

/-! ## Everything a step can do -/

/-- The next states of a step, by what the step did. -/
inductive StepTo (s : State) : State → Prop where
  | reported (f : FaultRecord) (hm : s.mode = .halted f) : StepTo s (s.report f)
  | waited (x : Reg) (b : Keys) (hm : s.mode = .awaitingKey x b)
      (hk : lowestKey s.params.keyWait s.keys b = none) : StepTo s (s.await x s.keys)
  | tookKey (x : Reg) (b : Keys) (k : Key) (hm : s.mode = .awaitingKey x b)
      (hk : lowestKey s.params.keyWait s.keys b = some k) :
      StepTo s { (s.setV x (byteOfKey k)).advance with mode := .running }
  | raised (kind : FaultKind) (value : Option Byte) (hm : s.mode = .running)
      (hf : s.FaultHolds { kind := kind, pc := s.pc, op := s.fetch s.pc, value := value }) :
      StepTo s (s.raise kind (s.fetch s.pc) value)
  | completed (i : Instr) (hm : s.mode = .running)
      (hd : decode s.params.orXor (s.fetch s.pc) = some i) : StepTo s (s.completed i)

/-- The fault an instruction raises holds of the state it stands in. -/
theorem faultHolds_of_raisesFault {s : State} {i : Instr} {kind : FaultKind} {value : Option Byte}
    (hd : decode s.params.orXor (s.fetch s.pc) = some i) (h : RaisesFault i s kind value) :
    s.FaultHolds { kind := kind, pc := s.pc, op := s.fetch s.pc, value := value } := by
  cases kind with
  | unknownOpcode => exact h.elim
  | invalidKeyIndex =>
    obtain ⟨x, hi, hv⟩ := h
    exact ⟨x, hi.imp (hd.trans ∘ congrArg some) (hd.trans ∘ congrArg some), hv⟩
  | stackOverflow =>
    obtain ⟨⟨nnn, rfl⟩, hsp⟩ := h
    exact ⟨⟨nnn, hd⟩, hsp⟩
  | stackUnderflow =>
    obtain ⟨rfl, hsp⟩ := h
    exact ⟨hd, hsp⟩
  | invalidFontDigit =>
    obtain ⟨x, rfl, hv⟩ := h
    exact ⟨x, hd, hv⟩

theorem stepTo_of_step {s t : State} (h : step s = .next t) : StepTo s t := by
  obtain ⟨f, hm, rfl⟩ | ⟨x, b, hm, rfl⟩ | ⟨hm, hd, rfl⟩ | ⟨i, hm, hd, hexec⟩ := step_cases h
  · exact .reported f hm
  · obtain ⟨hk, ht⟩ | ⟨k, hk, ht⟩ := s.pollKeyWait_cases x b <;> rw [ht]
    · exact .waited x b hm hk
    · exact .tookKey x b k hm hk
  · exact .raised .unknownOpcode none hm ⟨hd, rfl⟩
  · obtain hc | ⟨kind, value, hf, hr⟩ := exec_completed_or_raise i s
    · rw [Host.Outcome.next.inj (hexec.symm.trans hc)]
      exact .completed i hm hd
    · rw [Host.Outcome.next.inj (hexec.symm.trans hr), encode_of_decode hd]
      exact .raised kind value hm (faultHolds_of_raisesFault hd hf)

/-! ## What a frame keeps -/

theorem Frame.mode_eq {c : MayChange} {s t : State} (h : Frame c s t) (hc : c.mode = false) :
    t.mode = s.mode := by
  obtain ⟨-, -, -, -, -, -, hmode, -⟩ := h
  exact hmode hc

theorem Frame.fb_eq {c : MayChange} {s t : State} (h : Frame c s t) (hc : c.screen = false) :
    t.fb = s.fb := by
  obtain ⟨-, -, -, -, -, hfb, -⟩ := h
  exact hfb hc

theorem Frame.keys_eq {c : MayChange} {s t : State} (h : Frame c s t) : t.keys = s.keys := by
  obtain ⟨-, -, -, -, -, -, -, -, hkeys, -⟩ := h
  exact hkeys

theorem Frame.params_eq {c : MayChange} {s t : State} (h : Frame c s t) :
    t.params = s.params := by
  obtain ⟨-, -, -, -, -, -, -, -, -, hparams, -⟩ := h
  exact hparams

/-! ## Faults (R109, R110) -/

/-- Settles O14: of the five things a step can do, two report a fault: a halted engine's report,
which keeps the mode too, and the raise, which changes it. -/
theorem faultingStepIsPrecise : Obligations.FaultingStepIsPrecise := by
  intro s t f h hf
  cases stepTo_of_step h with
  | reported g hm =>
    cases hf
    rw [← hm]
    rfl
  | waited | tookKey => cases hf
  | raised => cases hf; rfl
  | completed i => rw [State.completed_result, resultAfter_fault] at hf; cases hf

/-! ## The mode (R24) -/

/-- A completed instruction leaves the mode to the frame, but for Fx0A. -/
@[simp] theorem State.completed_mode (s : State) (i : Instr) :
    (s.completed i).mode = modeAfter s i := by
  cases i with
  | ldVxKey => rfl
  | _ => exact (s.frame_completed _).mode_eq rfl

theorem modeAfter_cases {s : State} (hm : s.mode = .running) (i : Instr) :
    modeAfter s i = .running ∨ ∃ x, i = .ldVxKey x ∧ modeAfter s i = .awaitingKey x s.keys := by
  cases i with
  | ldVxKey x => exact .inr ⟨x, rfl, rfl⟩
  | _ => exact .inl hm

/-- Settles O15: the mode after each of the five things a step can do. -/
theorem modeTransitions : Obligations.ModeTransitions := by
  intro s t h
  cases stepTo_of_step h with
  | reported f hm => simp [hm]
  | waited x b hm => simp [hm]
  | tookKey x b k hm => simp [hm]
  | raised kind value hm => simp [hm]
  | completed i hm hd =>
    rw [hm, State.completed_mode]
    obtain hrun | ⟨x, rfl, hwait⟩ := modeAfter_cases hm i
    · exact .inl hrun
    · exact .inr (.inl ⟨x, hd, hwait⟩)

/-! ## The step result (R62, D35) -/

/-- What a completed instruction reports agrees with the mode it leaves. -/
theorem resultAfter_agrees_modeAfter {s : State} (hm : s.mode = .running) (i : Instr) :
    (∀ f, modeAfter s i ≠ .halted f) ∧
    ((resultAfter s i).waiting = true ↔ ∃ x b, modeAfter s i = .awaitingKey x b) := by
  rw [resultAfter_waiting]
  cases i with
  | ldVxKey x => exact ⟨nofun, fun _ => ⟨x, s.keys, rfl⟩, fun _ => ⟨x, rfl⟩⟩
  | _ => simp [modeAfter, hm]

/-- The instructions that can fault report nothing when they complete. -/
theorem resultAfter_of_faultHolds {s : State} {f : FaultRecord} {i : Instr} (hf : s.FaultHolds f)
    (hd : decode s.params.orXor (s.fetch s.pc) = some i) :
    resultAfter s i = StepResult.quiet := by
  obtain ⟨kind, pc, op, value⟩ := f
  cases kind with
  | unknownOpcode =>
    obtain ⟨hnone, -⟩ := hf
    cases hnone.symm.trans hd
  | invalidKeyIndex => obtain ⟨x, hi | hi, -⟩ := hf <;> cases hd.symm.trans hi <;> rfl
  | stackOverflow =>
    obtain ⟨⟨nnn, hi⟩, -⟩ := hf
    cases hd.symm.trans hi
    rfl
  | stackUnderflow =>
    obtain ⟨hi, -⟩ := hf
    cases hd.symm.trans hi
    rfl
  | invalidFontDigit =>
    obtain ⟨x, hi, -⟩ := hf
    cases hd.symm.trans hi
    rfl

/-- Settles O16: the result of each of the five things a step can do. -/
theorem stepResultFields : Obligations.StepResultFields := by
  intro s t h
  cases stepTo_of_step h with
  | reported f hm => simp [hm, StepResult.quiet]
  | waited x b hm => simp [hm, StepResult.quiet]
  | tookKey x b k hm => simp [hm, StepResult.quiet]
  | raised kind value hm hf =>
    refine ⟨iff_of_false nofun ?_, by simp, by simp [StepResult.quiet], iff_of_false nofun ?_⟩
    · rintro ⟨-, hd | ⟨x, y, n, hd⟩⟩
      · cases congrArg StepResult.draw (resultAfter_of_faultHolds hf hd)
      · cases congrArg StepResult.draw (resultAfter_of_faultHolds hf hd)
    · rintro ⟨-, hon, nnn, hd, hself⟩
      have hjump : (resultAfter s (.jp nnn)).selfJump = true :=
        (resultAfter_selfJump s _).mpr ⟨hon, nnn, rfl, hself⟩
      rw [resultAfter_of_faultHolds hf hd] at hjump
      cases hjump
  | completed i hm hd =>
    obtain ⟨hhalt, hwait⟩ := resultAfter_agrees_modeAfter hm i
    refine ⟨?_, fun f => ?_, ?_, ?_⟩
    · simp [hm, hd, resultAfter_draw]
    · simp [hhalt f]
    · simpa using hwait
    · simp [hm, hd, resultAfter_selfJump]

/-! ## The keys and the screen -/

theorem step_keeps_keys_params {s t : State} (h : step s = .next t) :
    t.keys = s.keys ∧ t.params = s.params := by
  cases stepTo_of_step h with
  | reported | waited | tookKey | raised => exact ⟨rfl, rfl⟩
  | completed i => exact ⟨(s.frame_completed i).keys_eq, (s.frame_completed i).params_eq⟩

/-- The instructions that write the screen are those that set the draw flag (D34). -/
theorem writesOf_screen (s : State) (i : Instr) :
    (writesOf s i).screen = (resultAfter s i).draw := by
  cases i <;> rfl

/-- Settles O20: only a completed instruction can change the screen, and those that do set the draw
flag. -/
theorem screenChangesOnlyWithDrawFlag : Obligations.ScreenChangesOnlyWithDrawFlag := by
  intro s t h hdraw
  cases stepTo_of_step h with
  | reported | waited | tookKey | raised => rfl
  | completed i => exact (s.frame_completed i).fb_eq ((writesOf_screen s i).trans hdraw)

/-! ## Determinism (R65) -/

/-- The state with another number of draws made before and another last result. -/
def State.withDraws (s : State) (n : Nat) (r : StepResult) : State :=
  { s with draws := n, result := r }

theorem State.writeBytes_withDraws (n : Nat) (r : StepResult) (bs : List Byte) :
    ∀ (s : State) (a : Word),
      (s.withDraws n r).writeBytes a bs = (s.writeBytes a bs).withDraws n r := by
  induction bs with
  | nil => intro s a; rfl
  | cons b bs ih => intro s a; exact ih (s.writeByte a b) (a + 1)

/-- Reading n bytes depends on the cells only. -/
theorem State.readBytes_congr {s t : State} (h : ∀ a, t.readByte a = s.readByte a) (n : Nat) :
    ∀ a : Word, t.readBytes a n = s.readBytes a n := by
  induction n with
  | zero => intro a; rfl
  | succ n ih => intro a; rw [State.readBytes, State.readBytes, h, ih]

/-- Where a sprite lands depends on its coordinates, I, the cells and the edge policy only (R99). -/
theorem State.litPixels_congr {s t : State} {x y : Reg} (hx : t.getV x = s.getV x)
    (hy : t.getV y = s.getV y) (hi : t.i = s.i) (hp : t.params = s.params)
    (hread : ∀ a, t.readByte a = s.readByte a) (n : Nibble) :
    t.litPixels x y n = s.litPixels x y n := by
  rw [State.litPixels, State.litPixels, hx, hy, hi, hp, State.readBytes_congr hread]

theorem State.drawn_withDraws (s : State) (x y : Reg) (k : Nibble) (n : Nat) (r : StepResult) :
    (s.withDraws n r).drawn x y k = s.drawn x y k :=
  congrArg (drawPixels s.fb)
    (State.litPixels_congr (s := s) (t := s.withDraws n r) rfl rfl rfl rfl (fun _ => rfl) k)

theorem State.writeResultAndFlag_withDraws (s : State) (n : Nat) (r : StepResult) (x : Reg)
    (a f : Byte) : (s.withDraws n r).writeResultAndFlag x a f =
      (s.writeResultAndFlag x a f).withDraws n r := by
  have hdest : (s.withDraws n r).params.vfDest = s.params.vfDest := rfl
  rw [State.writeResultAndFlag, State.writeResultAndFlag, hdest]
  cases s.params.vfDest <;> rfl

theorem State.push_withDraws (s : State) (n : Nat) (r : StepResult) (a : Word) :
    (s.withDraws n r).push a = (s.push a).map (fun t => t.withDraws n r) := by
  by_cases h : s.sp.val < 16
  · rw [State.push, State.push, dif_pos h, dif_pos (show (s.withDraws n r).sp.val < 16 from h)]
    rfl
  · rw [State.push, State.push, dif_neg h, dif_neg (show ¬ (s.withDraws n r).sp.val < 16 from h)]
    rfl

theorem State.pop_withDraws (s : State) (n : Nat) (r : StepResult) :
    (s.withDraws n r).pop = s.pop.map (fun p => (p.1, p.2.withDraws n r)) := by
  by_cases h : s.sp.val = 0
  · rw [State.pop, State.pop, dif_pos h, dif_pos (show (s.withDraws n r).sp.val = 0 from h)]
    rfl
  · rw [State.pop, State.pop, dif_neg h, dif_neg (show ¬ (s.withDraws n r).sp.val = 0 from h)]
    rfl

/-- But for Cxkk, an instruction writes alike whatever was drawn and reported before. -/
theorem State.effect_withDraws (s : State) {i : Instr} (hi : ∀ x kk, i ≠ .rnd x kk) (n : Nat)
    (r : StepResult) : (s.withDraws n r).effect i = (s.effect i).withDraws n r := by
  cases i with
  | rnd x kk => exact absurd rfl (hi x kk)
  | drw x y k => rw [State.effect, State.drawn_withDraws]; rfl
  | ldB | storeRegs => exact State.writeBytes_withDraws n r _ s _
  | addReg | subReg | shr => exact s.writeResultAndFlag_withDraws n r _ _ _
  | call =>
    refine (congrArg (Option.getD · _) (s.push_withDraws n r s.pc)).trans ?_
    exact Option.getD_map _ s (s.push s.pc)
  | ret =>
    rw [State.effect, State.pop_withDraws, State.effect]
    cases s.pop <;> rfl
  | _ => rfl

/-- But for Cxkk, an instruction completes alike whatever was drawn and reported before. -/
theorem State.completed_withDraws (s : State) {i : Instr} (hi : ∀ x kk, i ≠ .rnd x kk) (n : Nat)
    (r : StepResult) : (s.withDraws n r).completed i = { s.completed i with draws := n } := by
  rw [State.completed, State.effect_withDraws s hi]
  rfl

theorem State.pollKeyWait_withDraws (s : State) (n : Nat) (r : StepResult) (x : Reg) (b : Keys) :
    (s.withDraws n r).pollKeyWait x b = { s.pollKeyWait x b with draws := n } := by
  have hkey : lowestKey (s.withDraws n r).params.keyWait (s.withDraws n r).keys b =
      lowestKey s.params.keyWait s.keys b := rfl
  rw [State.pollKeyWait, State.pollKeyWait, hkey]
  cases lowestKey s.params.keyWait s.keys b <;> rfl

/-- Settles O21: each mode's branch reads neither the draws nor the last result, but for Cxkk. -/
theorem stepIgnoresRandomnessUnlessRnd : Obligations.StepIgnoresRandomnessUnlessRnd := by
  intro s n r hrnd
  show ∃ t, step s = .next t ∧ step (s.withDraws n r) = .next { t with draws := n }
  cases hm : s.mode with
  | halted f => exact ⟨_, step_halted hm, step_halted hm⟩
  | awaitingKey x b =>
    refine ⟨_, step_awaiting hm, ?_⟩
    rw [← State.pollKeyWait_withDraws s n r]
    exact step_awaiting (s := s.withDraws n r) hm
  | running =>
    cases hd : decode s.params.orXor (s.fetch s.pc) with
    | none => exact ⟨_, step_unknown hm hd, step_unknown hm hd⟩
    | some i =>
      rw [stepRunsDecodedInstruction s i hm hd, 
        stepRunsDecodedInstruction (s.withDraws n r) i hm hd]
      by_cases hf : ∃ kind value, RaisesFault i s kind value
      · obtain ⟨kind, value, hf⟩ := hf
        exact ⟨_, exec_eq_raise hf, exec_eq_raise hf⟩
      · have hc : ∀ kind value, ¬ RaisesFault i s kind value := fun k v h => hf ⟨k, v, h⟩
        have hi : ∀ x kk, i ≠ .rnd x kk := fun x kk h => hrnd hm x kk (hd.trans (congrArg some h))
        refine ⟨_, exec_eq_completed hc, ?_⟩
        rw [← State.completed_withDraws s hi n r]
        exact exec_eq_completed hc

end Sys2Proof.Machine
end

section
/-! PROOFS. The canonical form of memory, words placed at PC (spec 20_memory.md sections 1 and 2)
and the invariants that every step keeps (10_state.md section 7, 60_exceptions.md section 2). -/

namespace Sys2Proof.Machine

/-! ## The canonical form is canonical -/

/-- In a list of strictly rising addresses every entry is the one found at its address. -/
theorem Memory.lookup_eq_some_iff_mem {m : List Host.Cell}
    (hp : m.Pairwise (fun c d => c.1 < d.1)) (c : Host.Cell) :
    Memory.lookup c.1 m = some c.2 ↔ c ∈ m := by
  induction m with
  | nil => simp [Memory.lookup]
  | cons d m ih =>
    obtain ⟨hd, hp'⟩ := List.pairwise_cons.mp hp
    rw [Memory.lookup, List.mem_cons, ← ih hp']
    split
    · rename_i haddr
      have hnot : Memory.lookup c.1 m ≠ some c.2 := fun h =>
        absurd haddr (Nat.ne_of_lt (hd c ((ih hp').mp h)))
      simp [hnot, Prod.ext_iff, haddr, eq_comm]
    · rename_i haddr
      have hne : c ≠ d := fun h => haddr (congrArg Prod.fst h).symm
      simp [hne]

/-- The entries of a canonical memory are the cells that read otherwise than after reset. -/
theorem Memory.mem_iff_read {font : Font} {m : List Host.Cell} (h : Memory.wf font m = true)
    (c : Host.Cell) :
    c ∈ m ↔ Memory.read font m c.1 = c.2 ∧ c.2 ≠ Memory.resetByte font c.1 := by
  obtain ⟨hp, hm⟩ := (Memory.wf_iff font m).mp h
  rw [← Memory.lookup_eq_some_iff_mem hp, Memory.read]
  constructor
  · intro hl
    exact ⟨by rw [hl, Option.getD_some], (hm c ((Memory.lookup_eq_some_iff_mem hp c).mp hl)).2⟩
  · rintro ⟨hread, hreset⟩
    cases hl : Memory.lookup c.1 m with
    | none => rw [hl] at hread; exact absurd hread.symm hreset
    | some b => rw [hl] at hread; exact congrArg some hread

/-- Settles O9: canonical memories that read alike have the same entries, and both list them by
strictly rising address. -/
theorem canonicalMemoriesReadingAlikeAreEqual :
    Obligations.CanonicalMemoriesReadingAlikeAreEqual := by
  intro font m m' h h' hread
  obtain ⟨hp, -⟩ := (Memory.wf_iff font m).mp h
  obtain ⟨hp', -⟩ := (Memory.wf_iff font m').mp h'
  have hmem : ∀ c, c ∈ m ↔ c ∈ m' := fun c => by
    rw [Memory.mem_iff_read h, Memory.mem_iff_read h', hread]
  have hnodup : ∀ {l : List Host.Cell}, l.Pairwise (fun c d => c.1 < d.1) → l.Nodup := fun hl =>
    hl.imp fun hlt heq => absurd hlt (by simp [heq])
  refine ((List.perm_ext_iff_of_nodup (hnodup hp) (hnodup hp')).mpr hmem).eq_of_pairwise ?_ hp hp'
  intro c d _ _ hcd hdc
  exact absurd hdc (Nat.lt_asymm hcd)

/-! ## A word placed at PC (R33, R34) -/

/-- A change of the mode besides what a frame names. -/
theorem Frame.withMode {c : MayChange} {s t : State} (h : Frame c s t) (m : Mode) :
    Frame { c with mode := true } s { t with mode := m } := by
  obtain ⟨hregs, hindex, hstack, hdt, hst, hscreen, -, hdraws, hkeys, hparams, hmem⟩ := h
  exact ⟨hregs, hindex, hstack, hdt, hst, hscreen, nofun, hdraws, hkeys, hparams, hmem⟩

@[simp] theorem State.placeWord_mode (s : State) (w : Word) : (s.placeWord w).mode = .running := rfl
@[simp] theorem State.placeWord_pc (s : State) (w : Word) : (s.placeWord w).pc = s.pc :=
  State.writeBytes_pc _ s s.pc
@[simp] theorem State.placeWord_params (s : State) (w : Word) :
    (s.placeWord w).params = s.params := State.writeBytes_params _ s s.pc

/-- The word placed at PC is the word fetched there. -/
theorem State.fetch_placeWord (s : State) (w : Word) : (s.placeWord w).fetch s.pc = w := by
  have hread := State.readByte_writeBytes [highByte w, lowByte w] s s.pc (by simp)
  have hhi : (s.placeWord w).readByte s.pc = highByte w := by
    have h0 := hread 0 (by simp)
    rwa [BitVec.add_zero] at h0
  have hlo : (s.placeWord w).readByte (s.pc + 1) = lowByte w := hread 1 (by simp)
  rw [State.fetch, hhi, hlo, wordOfBytes_bytes]

theorem State.withFetchWord_toNat (s : State) (w : Word) :
    s.withFetchWord 16 w.toNat = s.placeWord w := by
  rw [State.withFetchWord, Nat.mod_eq_of_lt w.isLt, BitVec.ofNat_toNat, BitVec.setWidth_eq]

/-- Settles O8: the placed word is fetched, so the step runs what it decodes to. -/
theorem placedInstructionRuns : Obligations.PlacedInstructionRuns := by
  intro s w
  refine ⟨s.fetch_placeWord w, s.placeWord_pc w,
    (s.frame_writeBytes s.pc [highByte w, lowByte w]).withMode .running, fun i hd => ?_⟩
  rw [State.withFetchWord_toNat]
  refine stepRunsDecodedInstruction _ i (s.placeWord_mode w) ?_
  rw [State.placeWord_params, State.placeWord_pc, State.fetch_placeWord, hd]

/-! ## Memory stays canonical -/

theorem State.mem_push (s : State) (a : Word) : ((s.push a).getD s).mem = s.mem := by
  unfold State.push
  split <;> rfl

theorem State.mem_pop (s : State) : ((s.pop.map Prod.snd).getD s).mem = s.mem := by
  unfold State.pop
  split <;> rfl

theorem State.MemoryCanonical.of_mem_eq {s t : State} (h : s.MemoryCanonical) (hm : t.mem = s.mem)
    (hp : t.params = s.params) : t.MemoryCanonical := by
  rw [State.MemoryCanonical, hm, hp]
  exact h

/-- The writes of every instruction keep memory canonical: Fx33 and Fx55 store bytes, the others
leave memory as it is. -/
theorem State.MemoryCanonical.effect {s : State} (h : s.MemoryCanonical) (i : Instr) :
    (s.effect i).MemoryCanonical := by
  have hp : (s.effect i).params = s.params := (s.frame_effect i).params_eq
  cases i with
  | ldB | storeRegs => exact h.writeBytes _ s.i
  | addReg | subReg | shr => exact h.of_mem_eq (State.writeResultAndFlag_mem s _ _ _) hp
  | call => exact h.of_mem_eq (s.mem_push s.pc) hp
  | ret => exact h.of_mem_eq s.mem_pop hp
  | _ => exact h.of_mem_eq rfl hp

/-- Settles O22: only a completed instruction can write memory, and its writes keep the form. -/
theorem stepKeepsMemoryCanonical : Obligations.StepKeepsMemoryCanonical := by
  intro s t hs h
  cases stepTo_of_step h with
  | reported | waited | tookKey | raised => exact hs.of_mem_eq rfl rfl
  | completed i => exact hs.effect i

/-! ## A wait stands at its Fx0A (R104, D18) -/

theorem State.waitConsistent_iff (s : State) :
    s.WaitConsistent ↔ ∀ x b, s.mode = .awaitingKey x b →
      decode s.params.orXor (s.fetch s.pc) = some (.ldVxKey x) := by
  unfold State.WaitConsistent
  cases s.mode <;> simp

/-- Settles O23: the step that executes an Fx0A writes neither PC nor memory, a poll that waits on
keeps both with the register, and every other step ends in another mode. -/
theorem stepKeepsWaitConsistent : Obligations.StepKeepsWaitConsistent := by
  intro s t hs h
  rw [State.waitConsistent_iff] at hs ⊢
  intro y b' hm'
  cases stepTo_of_step h with
  | reported f hm => cases hm.symm.trans hm'
  | waited x b hm => cases hm'; exact hs _ b hm
  | tookKey => cases hm'
  | raised => cases hm'
  | completed i hm hd =>
    rw [State.completed_mode] at hm'
    obtain hrun | ⟨x, rfl, hwait⟩ := modeAfter_cases hm i
    · cases hrun.symm.trans hm'
    · cases hwait.symm.trans hm'
      exact hd

/-! ## A halted engine's fault recurs (R109, R110) -/

theorem State.haltConsistent_iff (s : State) :
    s.HaltConsistent ↔ ∀ f, s.mode = .halted f →
      f.pc = s.pc ∧ f.op = s.fetch s.pc ∧ s.FaultHolds f := by
  unfold State.HaltConsistent
  cases s.mode <;> simp

/-- Settles O24: a raise records the PC, the word and the condition it was raised for and writes
none of what they speak of, a halted engine's report writes nothing, and every other step ends in
another mode. -/
theorem stepKeepsHaltConsistent : Obligations.StepKeepsHaltConsistent := by
  intro s t hs h
  rw [State.haltConsistent_iff] at hs ⊢
  intro f' hm'
  cases stepTo_of_step h with
  | reported f hm => exact hs f' hm'
  | waited => cases hm'
  | tookKey => cases hm'
  | raised kind value hm hf => cases hm'; exact ⟨rfl, rfl, hf⟩
  | completed i hm =>
    rw [State.completed_mode] at hm'
    exact absurd hm' ((resultAfter_agrees_modeAfter hm i).1 f')

/-- Settles O25: the empty list is canonical, and the mode after reset is Running. -/
theorem resetMeetsInvariants : Obligations.ResetMeetsInvariants :=
  ⟨Memory.wf_nil defaultFont, trivial, trivial⟩

end Sys2Proof.Machine
end

section
/-! PROOFS. The host's operations (spec 60_exceptions.md sections 3 and 4, 70_reset_and_hazards.md
section 1): what each changes and what it leaves. -/

namespace Sys2Proof.Machine

/-! ## The step as an operation (R118) -/

theorem step_eq_stepOp (s : State) : step s = .next s.stepOp := by
  obtain ⟨t, ht⟩ := stepAlwaysAnswersNext s
  rw [State.stepOp, ht]

theorem State.load_too_large {s : State} {rom : List Byte} (h : rom.length > 3584) :
    s.load rom = (.romTooLarge, s) := if_pos h

theorem State.load_fits {s : State} {rom : List Byte} (h : rom.length ≤ 3584) :
    s.load rom = (.ok, s.writeBytes 0x200 rom) := if_neg (Nat.not_lt.mpr h)

/-- What a load leaves is the state as it was or with bytes stored, so it is within the frame of a
store. -/
theorem State.load_cases (s : State) (rom : List Byte) :
    (s.load rom).2 = s ∨ (s.load rom).2 = s.writeBytes 0x200 rom := by
  obtain h | h := Nat.lt_or_ge 3584 rom.length
  · exact .inl (by rw [State.load_too_large h])
  · exact .inr (by rw [State.load_fits h])

/-- Settles O59: the two branches of the load. -/
theorem loadIsAllOrNothing : Obligations.LoadIsAllOrNothing := by
  intro s rom
  refine ⟨State.load_too_large, fun h => ?_⟩
  rw [State.load_fits h]
  refine ⟨rfl, fun j hj => ?_, s.frame_writeBytes 0x200 rom, State.writeBytes_pc rom s 0x200,
    State.writeBytes_result rom s 0x200⟩
  rw [BitVec.ofNat_add]
  exact State.readByte_writeBytes rom s 0x200 (by omega) j hj

theorem State.load_keys (s : State) (rom : List Byte) : (s.load rom).2.keys = s.keys := by
  obtain h | h := s.load_cases rom <;> simp [h]

theorem State.load_params (s : State) (rom : List Byte) : (s.load rom).2.params = s.params := by
  obtain h | h := s.load_cases rom <;> simp [h]

/-- Settles O19: a step keeps the keys and the parameters by its frame, and so do a load and a tick;
`setKeys` writes the one field. -/
theorem onlyTheHostSetsKeys : Obligations.OnlyTheHostSetsKeys := by
  refine ⟨fun s t h => step_keeps_keys_params h, State.load_keys, fun _ => rfl,
    fun _ _ => ⟨rfl, rfl⟩, fun s op => ?_⟩
  cases op with
  | reset => rfl
  | load rom => exact s.load_params rom
  | setKeys k => rfl
  | step => exact (step_keeps_keys_params (step_eq_stepOp s)).2
  | tickTimers => rfl

/-! ## Every schedule keeps memory canonical -/

theorem State.MemoryCanonical.apply {s : State} (h : s.MemoryCanonical) (op : HostOp) :
    (s.apply op).2.MemoryCanonical := by
  cases op with
  | reset => exact Memory.wf_nil s.params.font
  | load rom =>
    show (s.load rom).2.MemoryCanonical
    obtain hl | hl := s.load_cases rom <;> rw [hl]
    · exact h
    · exact h.writeBytes rom 0x200
  | setKeys | tickTimers => exact h.of_mem_eq rfl rfl
  | step => exact stepKeepsMemoryCanonical s _ h (step_eq_stepOp s)

/-- Settles O26, by induction on the schedule. -/
theorem hostSchedulesKeepMemoryCanonical : Obligations.HostSchedulesKeepMemoryCanonical := by
  intro ops
  induction ops with
  | nil => exact fun s h => h
  | cons op ops ih => exact fun s h => ih _ (h.apply op)

/-! ## The reset (R124) -/

/-- After reset every cell holds the font or zero. -/
theorem State.resetOp_readByte (s : State) (a : Word) :
    s.resetOp.readByte a = Memory.resetByte s.params.font (a.toNat % 4096) := by
  rw [← effAddr_eq]
  rfl

/-- Settles O27: the fields of the reset record, and memory with no cell listed. -/
theorem resetRestoresLifecycleValues : Obligations.ResetRestoresLifecycleValues := by
  intro s
  refine ⟨fun a => s.resetOp_readByte a, fun r => ?_, rfl, rfl, rfl, fun j => ?_, rfl, rfl,
    fun k => ?_, fun py px => ?_, rfl, rfl, rfl⟩
  · simp [State.getV, State.resetOp, State.reset]
  · simp [State.resetOp, State.reset]
  · simp [State.resetOp, State.reset]
  · simp [State.resetOp, State.reset]

/-! ## The timers (R115) -/

/-- A timer counts down by one, clamped at 0. -/
theorem toNat_tickDown (t : Byte) : (tickDown t).toNat = t.toNat - 1 := by
  unfold tickDown
  split
  · rename_i h; rw [h]; rfl
  · rename_i h
    have hpos : t.toNat ≠ 0 := fun h0 => h (BitVec.eq_of_toNat_eq h0)
    have hlt := t.isLt
    rw [BitVec.toNat_sub]
    show (2 ^ 8 - 1 + t.toNat) % 2 ^ 8 = _
    omega

/-- Settles O58: both counters tick down, and ST reaches 0 from 1 exactly when it was 1. -/
theorem timerTick : Obligations.TimerTick := by
  intro s
  refine ⟨toNat_tickDown s.dt, toNat_tickDown s.st, ?_, rfl⟩
  have hone : s.st = 1 ↔ s.st.toNat = 1 := BitVec.toNat_inj.symm
  have htick : s.tickTimers.2.st.toNat = s.st.toNat - 1 := toNat_tickDown s.st
  rw [htick, State.tickTimers, decide_eq_true_iff, hone]
  omega

end Sys2Proof.Machine
end

section
/-! PROOFS. Control flow (spec 41_control_flow.md): jumps, calls, returns and skips. -/

namespace Sys2Proof.Machine

/-! ## Jumps (R67, R73) -/

/-- Settles O28: the word that PC receives is the address widened, and the signal compares it with
PC. -/
theorem jumpSetsPc : Obligations.JumpSetsPc := by
  intro nnn s
  refine ⟨s.completed (.jp nnn), rfl, toNat_zextAddr nnn, s.frame_completed (.jp nnn), rfl, rfl,
    rfl, ?_⟩
  rw [State.completed_result, resultAfter_selfJump, ← toNat_zextAddr nnn, BitVec.toNat_inj]
  simp

/-- A byte widened to a word is the same number. -/
theorem toNat_zextByte (b : Byte) : (zextByte b).toNat = b.toNat :=
  BitVec.toNat_setWidth_of_le (by decide)

/-- Settles O29: a 12-bit and an 8-bit number have a sum below 2^16. -/
theorem jumpOffsetAddsV0 : Obligations.JumpOffsetAddsV0 := by
  intro nnn s
  refine ⟨s.completed (.jpV0 nnn), rfl, ?_, rfl, s.frame_completed (.jpV0 nnn)⟩
  have hnnn := nnn.isLt
  have hv := (s.getV 0).isLt
  show (zextAddr nnn + zextByte (s.getV 0)).toNat = _
  rw [BitVec.toNat_add, toNat_zextAddr, toNat_zextByte, Nat.mod_eq_of_lt (by omega)]

/-! ## Calls and returns (R66, R68) -/

/-- What CALL writes with a free slot. -/
theorem State.effect_call {s : State} (nnn : Addr) (h : s.sp.val < 16) :
    s.effect (.call nnn) =
      { s with stack := s.stack.set s.sp.val s.pc, sp := ⟨s.sp.val + 1, by omega⟩ } := by
  rw [State.effect, State.push, dif_pos h, Option.getD_some]

/-- What RET writes with an occupied slot. -/
theorem State.effect_ret {s : State} (h : s.sp.val ≠ 0) :
    s.effect .ret = { s with sp := ⟨s.sp.val - 1, by omega⟩ } := by
  rw [State.effect, State.pop, dif_neg h]
  rfl

theorem pcAfter_ret {s : State} (h : s.sp.val ≠ 0) :
    pcAfter s .ret = s.stack[s.sp.val - 1] + 2 := dif_neg h

/-- Settles O30: the push writes the slot SP names and no other. -/
theorem callPushesItsAddress : Obligations.CallPushesItsAddress := by
  intro nnn s h
  refine ⟨s.completed (.call nnn), exec_call nnn (Nat.ne_of_lt h), toNat_zextAddr nnn, ?_,
    fun j => ?_, rfl, s.frame_completed (.call nnn)⟩
  · rw [State.completed, State.effect_call nnn h]
  · rw [State.completed, State.effect_call nnn h]
    simp [Vector.getElem_set, eq_comm]

/-- Settles O31: the pop reads the last occupied slot; under pop_zero nothing is popped. -/
theorem returnPops : Obligations.ReturnPops := by
  refine ⟨fun s h => ?occupied, fun s h hp => ?popZero⟩
  case occupied =>
    refine ⟨s.completed .ret, exec_ret h, pcAfter_ret h, ?_, ?_, rfl, s.frame_completed .ret⟩
    · rw [State.completed, State.effect_ret h]
      exact Nat.sub_add_cancel (Nat.pos_of_ne_zero h)
    · rw [State.completed, State.effect_ret h]
  case popZero =>
    have heffect : s.effect .ret = s := by
      rw [State.effect, State.pop_eq_none.mpr h, Option.map_none, Option.getD_none]
    have hframe : Frame {} s (s.effect .ret) := heffect.symm ▸ Frame.refl {} s
    exact ⟨s.completed .ret, exec_ret_popZero h hp, dif_pos h, rfl, hframe⟩

/-- Two steps within a frame are within it together. -/
theorem Frame.trans {c : MayChange} {s t u : State} (h : Frame c s t) (h' : Frame c t u) :
    Frame c s u := by
  obtain ⟨hregs, hindex, hstack, hdt, hst, hscreen, hmode, hdraws, hkeys, hparams, hmem⟩ := h
  obtain ⟨hregs', hindex', hstack', hdt', hst', hscreen', hmode', hdraws', hkeys', hparams',
    hmem'⟩ := h'
  exact ⟨fun r hr => (hregs' r hr).trans (hregs r hr), fun hc => (hindex' hc).trans (hindex hc),
    fun hc => ⟨(hstack' hc).1.trans (hstack hc).1, (hstack' hc).2.trans (hstack hc).2⟩,
    fun hc => (hdt' hc).trans (hdt hc), fun hc => (hst' hc).trans (hst hc),
    fun hc => (hscreen' hc).trans (hscreen hc), fun hc => (hmode' hc).trans (hmode hc),
    fun hc => (hdraws' hc).trans (hdraws hc), hkeys'.trans hkeys, hparams'.trans hparams,
    fun a ha => (hmem' a ha).trans (hmem a ha)⟩

/-- Settles O32: the return pops the slot the call wrote. -/
theorem callThenReturnComesBack : Obligations.CallThenReturnComesBack := by
  intro nnn s t h hexec
  obtain ⟨t', ht', -, hsp, hstack, -, hcall⟩ := callPushesItsAddress nnn s h
  obtain rfl : t = t' := Host.Outcome.next.inj (hexec.symm.trans ht')
  obtain ⟨u, hu, hpc, husp, hustack, -, hret⟩ := returnPops.1 t (by omega)
  have hslot : t.stack[t.sp.val - 1]'(by omega) = s.pc := by
    have hs := hstack ⟨s.sp.val, h⟩
    rw [if_pos rfl] at hs
    rw [← hs]
    simp [hsp]
  refine ⟨u, hu, by rw [hpc, hslot], Fin.ext (by omega), fun j hj => ?_, hcall.trans hret⟩
  rw [hustack, hstack, if_neg hj]

/-! ## Skips (R69 to R72) -/

/-- A skip's PC as a number, modulo 2^16 (D21). -/
theorem toNat_add_ite (pc a b : Word) (p : Prop) [Decidable p] :
    (pc + if p then a else b).toNat = (pc.toNat + if p then a.toNat else b.toNat) % 2 ^ 16 := by
  rw [BitVec.toNat_add, apply_ite BitVec.toNat]

/-- Settles O33: the words by their fields, and the two PCs of each skip. -/
theorem skipsOnLiteral : Obligations.SkipsOnLiteral := by
  intro x kk s
  exact ⟨toNat_wordXKk 0x3 x kk, toNat_wordXKk 0x4 x kk,
    ⟨_, exec_seLit x kk s, rfl, s.frame_completed (.seLit x kk), toNat_add_ite s.pc 4 2 _⟩,
    ⟨_, exec_sneLit x kk s, rfl, s.frame_completed (.sneLit x kk), toNat_add_ite s.pc 2 4 _⟩⟩

/-- Settles O34: the two PCs of each skip, and the test of the last digit in both families. -/
theorem skipsOnRegisters : Obligations.SkipsOnRegisters := by
  refine ⟨fun x y s => ⟨?se, ?sne⟩, fun o w hop hn => ?unmatched⟩
  case se =>
    exact ⟨_, exec_seReg x y s, rfl, s.frame_completed (.seReg x y), toNat_add_ite s.pc 4 2 _⟩
  case sne =>
    exact ⟨_, exec_sneReg x y s, rfl, s.frame_completed (.sneReg x y), toNat_add_ite s.pc 2 4 _⟩
  case unmatched =>
    have hdigit : ¬ fieldN w = 0#4 := fun h0 => hn (by rw [← toNat_fieldN, h0]; rfl)
    obtain h5 | h9 := hop
    · simp [decode, toNat_fieldOp, h5, hdigit]
    · simp [decode, toNat_fieldOp, h9, hdigit]

end Sys2Proof.Machine
end

section
/-! PROOFS. The register ALU (spec 42_register_alu.md sections 3 to 5): bitwise operations, the
operations with a flag under both values of P_VF_DEST, and the masked random byte. -/

namespace Sys2Proof.Machine

/-! ## Bitwise operations (R80 to R82) -/

/-- Settles O39: one write of the bitwise result, whose bits are the operation on the operands'. -/
theorem bitwiseOperations : Obligations.BitwiseOperations := by
  intro x y s
  refine ⟨completes_of_exec rfl fun k _ => ?or, completes_of_exec rfl fun k _ => ?and,
    completes_of_exec rfl fun k _ => ?xor⟩
  case or => rw [State.completed_getV, State.effect, State.getV_setV_self, BitVec.getLsbD_or]
  case and => rw [State.completed_getV, State.effect, State.getV_setV_self, BitVec.getLsbD_and]
  case xor => rw [State.completed_getV, State.effect, State.getV_setV_self, BitVec.getLsbD_xor]

/-! ## Operations with a flag (R76, R83 to R85) -/

/-- The destination holds the result, unless the flag is written to it last. -/
theorem State.getV_writeResultAndFlag_dest (s : State) {x : Reg} (r f : Byte)
    (h : x ≠ vf ∨ s.params.vfDest = .result) : (s.writeResultAndFlag x r f).getV x = r := by
  rw [State.getV_writeResultAndFlag, if_pos ⟨rfl, h⟩]

/-- VF holds the flag, unless the result is written to it last. -/
theorem State.getV_writeResultAndFlag_vf (s : State) {x : Reg} (r f : Byte)
    (h : x ≠ vf ∨ s.params.vfDest = .flag) : (s.writeResultAndFlag x r f).getV vf = f := by
  have hlast : ¬ (vf = x ∧ (x ≠ vf ∨ s.params.vfDest = .result)) := by
    rintro ⟨rfl, hx | hr⟩
    · exact hx rfl
    · simp [hr] at h
  rw [State.getV_writeResultAndFlag, if_neg hlast, if_pos rfl]

theorem toNat_flagByte (p : Prop) [Decidable p] :
    (flagByte (decide p)).toNat = if p then 1 else 0 := by
  by_cases h : p <;> simp [flagByte, h]

theorem toNat_carryFlag (a b : Byte) :
    (carryFlag a b).toNat = if a.toNat + b.toNat > 255 then 1 else 0 := toNat_flagByte _

theorem toNat_notBorrowFlag (p : SubFlag) (a b : Byte) :
    (notBorrowFlag p a b).toNat =
      if a.toNat > b.toNat ∨ (p = .ge ∧ a.toNat = b.toNat) then 1 else 0 := by
  cases p with
  | gt => simp [notBorrowFlag, toNat_flagByte]
  | ge =>
    have hge : a.toNat ≥ b.toNat ↔ a.toNat > b.toNat ∨ a.toNat = b.toNat := by omega
    simp only [notBorrowFlag, toNat_flagByte, true_and, hge]

theorem toNat_shiftedOutFlag (a : Byte) : (shiftedOutFlag a).toNat = a.toNat % 2 := by
  rw [shiftedOutFlag, BitVec.toNat_and]
  exact Nat.and_one_is_mod a.toNat

/-- Settles O40: the byte sum and the carry. -/
theorem addSetsCarry : Obligations.AddSetsCarry := by
  intro x y s
  refine completes_of_exec (exec_addReg x y s) ⟨fun h => ?sum, fun h => ?carry⟩
  case sum =>
    rw [State.completed_getV, State.effect, State.getV_writeResultAndFlag_dest s _ _ h,
      BitVec.toNat_add]
  case carry =>
    rw [State.completed_getV, State.effect, State.getV_writeResultAndFlag_vf s _ _ h,
      toNat_carryFlag]

/-- Settles O41: the byte difference and the comparison by P_SUB_FLAG. -/
theorem subtractSetsNotBorrow : Obligations.SubtractSetsNotBorrow := by
  intro x y s
  refine completes_of_exec (exec_subReg x y s) ⟨fun h => ?difference, fun h => ?notBorrow⟩
  case difference =>
    have hy := (s.getV y).isLt
    rw [State.completed_getV, State.effect, State.getV_writeResultAndFlag_dest s _ _ h,
      BitVec.toNat_sub]
    omega
  case notBorrow =>
    rw [State.completed_getV, State.effect, State.getV_writeResultAndFlag_vf s _ _ h,
      toNat_notBorrowFlag]

/-- Settles O42: the shifted byte and its bit 0; the y field is in neither. -/
theorem shiftRight : Obligations.ShiftRight := by
  intro x y s
  refine completes_of_exec (exec_shr x y s)
    ⟨fun h => ?shifted, fun h => ?bitOut, fun z => exec_shr x z s⟩
  case shifted =>
    rw [State.completed_getV, State.effect, State.getV_writeResultAndFlag_dest s _ _ h,
      BitVec.toNat_ushiftRight, Nat.shiftRight_one]
  case bitOut =>
    rw [State.completed_getV, State.effect, State.getV_writeResultAndFlag_vf s _ _ h,
      toNat_shiftedOutFlag]

/-! ## The random byte (R86) -/

theorem getV_completed_rnd (s : State) (x : Reg) (kk : Byte) :
    (s.completed (.rnd x kk)).getV x = Config.rng s.draws &&& kk := s.getV_setV_self x _

/-- Settles O43: the byte written is the byte drawn under the mask. -/
theorem randomIsMasked : Obligations.RandomIsMasked := by
  intro x kk s
  refine completes_of_exec rfl ⟨rfl, fun k _ => ?bits, fun h0 => ?none, fun hff => ?all⟩
  case bits => rw [getV_completed_rnd, BitVec.getLsbD_and]
  case none => rw [getV_completed_rnd, h0]; exact BitVec.and_zero
  case all => rw [getV_completed_rnd, hff]; exact BitVec.and_allOnes

end Sys2Proof.Machine
end

section
/-! PROOFS. The index register and memory transfers (spec 43_index_memory.md): Fx1E, Fx29, and the
stores and loads through I. -/

namespace Sys2Proof.Machine

/-! ## The index register (R89, R90) -/

/-- The mask 0x0FFF keeps the low 12 bits of a word. -/
theorem toNat_and_0FFF (a : Word) : (a &&& 0x0FFF).toNat = a.toNat % 4096 := effAddr_eq a

/-- The sum of Fx1E as a number, by P_ADD_I_WIDTH. -/
theorem toNat_addIndex (w : AddIWidth) (i : Word) (a : Byte) :
    (addIndex w i a).toNat =
      (i.toNat + a.toNat) % (match w with | .w16 => 2 ^ 16 | .w12 => 2 ^ 12) := by
  cases w with
  | w16 => rw [addIndex, BitVec.toNat_add, toNat_zextByte]
  | w12 =>
    rw [addIndex, toNat_and_0FFF, BitVec.toNat_add, toNat_zextByte]
    show _ % 2 ^ 16 % 4096 = _ % 2 ^ 12
    omega

/-- Both widths reach the same cells through I. -/
theorem effAddr_addIndex (w : AddIWidth) (i : Word) (a : Byte) :
    effAddr (addIndex w i a) = (i.toNat + a.toNat) % 4096 := by
  rw [effAddr_eq, toNat_addIndex]
  cases w <;> simp only <;> omega

/-- Settles O45: one write of I with the sum, by either width. -/
theorem addToIndex : Obligations.AddToIndex := by
  intro x s
  exact completes_of_exec rfl ⟨toNat_addIndex _ _ _, effAddr_addIndex _ _ _⟩

/-- Five times a byte is a 16-bit number. -/
theorem toNat_glyphAddr (d : Byte) : (glyphAddr d).toNat = 5 * d.toNat := by
  have hd := d.isLt
  rw [glyphAddr, BitVec.toNat_mul, toNat_zextByte]
  show d.toNat * 5 % 2 ^ 16 = _
  omega

/-- Settles O46: in both cases the fault of Fx29 is excluded. -/
theorem fontGlyphAddress : Obligations.FontGlyphAddress := by
  intro x s h
  have hno : ¬ ((s.getV x).toNat > 0xF ∧ s.params.fontDigit = .fault) := by
    rintro ⟨hgt, hfault⟩
    obtain hle | hcompute := h
    · omega
    · cases hfault.symm.trans hcompute
  exact completes_of_exec (exec_ldF hno) (toNat_glyphAddr _)

/-! ## Stores (R91, R92) -/

/-- Settles O47: three stored bytes, read back as the decimal digits. -/
theorem storeDecimalDigits : Obligations.StoreDecimalDigits := by
  intro x s
  have hread := State.readByte_writeBytes (bcdDigits (s.getV x)) s s.i (by simp [bcdDigits])
  have h0 : (s.completed (.ldB x)).readByte s.i = s.getV x / 100 := by
    have hi := hread 0 (by simp [bcdDigits])
    rwa [BitVec.add_zero] at hi
  have h1 : (s.completed (.ldB x)).readByte (s.i + 1) = s.getV x / 10 % 10 :=
    hread 1 (by simp [bcdDigits])
  have h2 : (s.completed (.ldB x)).readByte (s.i + 2) = s.getV x % 10 :=
    hread 2 (by simp [bcdDigits])
  refine ⟨?_, completes_of_exec (exec_ldB x s) ⟨?_, ?_, ?_⟩⟩
  · rw [encode, toNat_wordXKk]
    show 15 * 4096 + x.val * 256 + 0x33 = _
    omega
  · rw [h0]; exact BitVec.toNat_udiv
  · rw [h1, BitVec.toNat_umod, BitVec.toNat_udiv]; rfl
  · rw [h2]; exact BitVec.toNat_umod

theorem State.getElem_regsUpTo (s : State) {x j : Reg} (h : j.val < (s.regsUpTo x).length) :
    (s.regsUpTo x)[j.val] = s.getV j := by
  simp [State.regsUpTo, State.getV]

/-- Settles O48: the stored bytes are the registers up to Vx, each read back at its address. -/
theorem storeRegisters : Obligations.StoreRegisters := by
  intro x s
  refine ⟨?_, completes_of_exec (exec_storeRegs x s) fun j hj => ?_⟩
  · rw [encode, toNat_wordXKk]
    show 15 * 4096 + x.val * 256 + 0x55 = _
    omega
  · have hx := x.isLt
    have hlen := s.length_regsUpTo x
    have hlt : j.val < (s.regsUpTo x).length := hlen ▸ Nat.lt_succ_of_le hj
    rw [← s.getElem_regsUpTo hlt]
    exact State.readByte_writeBytes (s.regsUpTo x) s s.i (by omega) j.val hlt

/-! ## Loads (R93) -/

/-- Settles O49: every register after the load, from the cells and registers before it. -/
theorem loadRegisters : Obligations.LoadRegisters := by
  intro x s
  refine ⟨?_, completes_of_exec rfl (s.getV_loadUpTo x)⟩
  rw [encode, toNat_wordXKk]
  show 15 * 4096 + x.val * 256 + 0x65 = _
  omega

theorem Frame.i_eq {c : MayChange} {s t : State} (h : Frame c s t) (hc : c.index = false) :
    t.i = s.i := by
  obtain ⟨-, hindex, -⟩ := h
  exact hindex hc

/-- Settles O50: each register loaded is the byte that the store put at its address, since I and
memory stand. -/
theorem storeThenLoadRestores : Obligations.StoreThenLoadRestores := by
  intro x s t u hstore hmem hparams hi
  obtain ⟨-, t', ht', -, -, hframe, hbytes⟩ := storeRegisters x s
  obtain rfl : t = t' := Host.Outcome.next.inj (hstore.symm.trans ht')
  obtain ⟨-, w, hw, -, -, -, hregs⟩ := loadRegisters x u
  refine ⟨w, hw, fun j hj => ?_⟩
  have hread : ∀ a, u.readByte a = t.readByte a := fun a => by
    rw [State.readByte, State.readByte, hmem, hparams]
  rw [hregs, if_pos hj, hread, hi, hframe.i_eq rfl, hbytes j hj]

end Sys2Proof.Machine
end

section
/-! PROOFS. The display (spec 44_display.md): 00E0 and Dxyn, pixel by pixel. -/

namespace Sys2Proof.Machine

/-- Settles O51: every pixel of the blank screen is off. -/
theorem clearScreen : Obligations.ClearScreen := by
  refine ⟨rfl, fun s => completes_of_exec rfl fun py px => ?_⟩
  show blankScreen[py][px] = false
  simp [blankScreen]

/-! ## The pixels of a draw (R95 to R99) -/

theorem Screen.ext_at {fb fb' : Screen} (h : ∀ q, fb.at q = fb'.at q) : fb = fb' := by
  apply Vector.ext
  intro py hpy
  apply Vector.ext
  intro px hpx
  exact h (⟨py, hpy⟩, ⟨px, hpx⟩)

theorem State.litPixels_nodup (s : State) (x y : Reg) (n : Nibble) : (s.litPixels x y n).Nodup := by
  apply spritePixels_nodup
  rw [State.readBytes_length]
  exact Nat.le_trans (Nat.le_of_lt n.isLt) (by decide)

/-- The pixels toggled are those the specification names. -/
theorem State.mem_litPixels (s : State) (x y : Reg) (n : Nibble) (py : Fin 32) (px : Fin 64) :
    (py, px) ∈ s.litPixels x y n ↔ SpriteLights s x y n py px :=
  mem_spritePixels_iff_lights s x y n (py, px)

/-- A draw inverts exactly the sprite's pixels. -/
theorem State.at_drawn (s : State) (x y : Reg) (n : Nibble) (q : Fin 32 × Fin 64) :
    (s.drawn x y n).1.at q = if q ∈ s.litPixels x y n then !(s.fb.at q) else s.fb.at q :=
  at_foldl_togglePixel _ (s.fb, false) (s.litPixels_nodup x y n) q

/-- A draw collides exactly when one of the sprite's pixels was on. -/
theorem State.drawn_collides (s : State) (x y : Reg) (n : Nibble) :
    (s.drawn x y n).2 = true ↔ ∃ q ∈ s.litPixels x y n, s.fb.at q = true :=
  (foldl_togglePixel_hit _ (s.fb, false) (s.litPixels_nodup x y n)).trans (by simp)

theorem State.fb_completed_drw (s : State) (x y : Reg) (n : Nibble) :
    (s.completed (.drw x y n)).fb = (s.drawn x y n).1 := rfl

/-- VF reports the collision. -/
theorem State.vf_completed_drw (s : State) (x y : Reg) (n : Nibble) :
    (s.completed (.drw x y n)).getV vf = if (s.drawn x y n).2 then 1 else 0 :=
  State.getV_setV_self _ vf _

/-- Settles O52: the toggled pixels are those `SpriteLights` names, each toggled once. -/
theorem drawInvertsSpritePixels : Obligations.DrawInvertsSpritePixels := by
  intro x y n s
  have hat : ∀ py px, (s.completed (.drw x y n)).fb[py][px] =
      if (py, px) ∈ s.litPixels x y n then !s.fb[py][px] else s.fb[py][px] :=
    fun py px => s.at_drawn x y n (py, px)
  have hhit : (s.drawn x y n).2 = true ↔
      ∃ py px, SpriteLights s x y n py px ∧ s.fb[py][px] = true := by
    rw [State.drawn_collides, Prod.exists]
    simp only [State.mem_litPixels]
    rfl
  refine completes_of_exec rfl ⟨fun py px => ⟨fun h => ?_, fun h => ?_⟩, fun h => ?_, fun h => ?_⟩
  · rw [hat, if_pos ((s.mem_litPixels x y n py px).mpr h)]
  · rw [hat, if_neg (mt (s.mem_litPixels x y n py px).mp h)]
  · rw [State.vf_completed_drw, if_pos (hhit.mpr h)]
  · rw [State.vf_completed_drw, if_neg (mt hhit.mp h)]

/-- The same draw after a draw whose coordinates are not VF lands on the same pixels. -/
theorem State.litPixels_completed_drw (s : State) {x y : Reg} (n : Nibble) (hx : x ≠ vf)
    (hy : y ≠ vf) : (s.completed (.drw x y n)).litPixels x y n = s.litPixels x y n :=
  State.litPixels_congr (s := s) (t := s.completed (.drw x y n)) (State.getV_setV_ne _ _ hx)
    (State.getV_setV_ne _ _ hy) rfl rfl (fun _ => rfl) n

theorem exec_drw (x y : Reg) (n : Nibble) (s : State) :
    exec (.drw x y n) s = .next (s.completed (.drw x y n)) := rfl

/-- A pixel of the sprite is on after the draw exactly when the draw turned it on. -/
theorem State.turned_on_iff (s : State) (x y : Reg) (n : Nibble) (q : Fin 32 × Fin 64) :
    (q ∈ s.litPixels x y n ∧ (s.drawn x y n).1.at q = true) ↔
      (s.fb.at q = false ∧ (s.drawn x y n).1.at q = true) := by
  rw [State.at_drawn]
  by_cases h : q ∈ s.litPixels x y n <;> simp [h]

/-- Settles O53: the second draw inverts the same pixels back, and collides with those that the
first turned on. -/
theorem drawTwiceRestoresScreen : Obligations.DrawTwiceRestoresScreen := by
  intro x y n s t hx hy hexec
  obtain rfl : s.completed (.drw x y n) = t := Host.Outcome.next.inj hexec
  have hlit := s.litPixels_completed_drw n hx hy
  refine ⟨_, exec_drw x y n _, Screen.ext_at fun q => ?screen, ?collision, ?flag⟩
  case screen =>
    rw [State.fb_completed_drw, State.at_drawn, hlit, State.fb_completed_drw, State.at_drawn]
    split <;> simp
  case collision =>
    have hhit : ((s.completed (.drw x y n)).drawn x y n).2 = true ↔
        ∃ (py : Fin 32) (px : Fin 64), s.fb[py][px] = false ∧
          (s.completed (.drw x y n)).fb[py][px] = true := by
      rw [State.drawn_collides, hlit, Prod.exists]
      exact exists_congr fun py => exists_congr fun px => s.turned_on_iff x y n (py, px)
    rw [State.vf_completed_drw, ← hhit]
    cases ((s.completed (.drw x y n)).drawn x y n).2 <;> decide
  case flag =>
    rw [State.vf_completed_drw]
    split
    · exact .inl rfl
    · exact .inr rfl

end Sys2Proof.Machine
end

section
/-! PROOFS. Keys and timers (spec 45_keys_timers.md): the key skips, the key wait and the timer
copies. -/

namespace Sys2Proof.Machine

/-! ## Key skips (R101, R102) -/

theorem keyOfByte_of_lt {b : Byte} (h : b.toNat < 16) : keyOfByte b = some ⟨b.toNat, h⟩ :=
  dif_pos h

/-- Settles O54: the byte names a key, and the PC of the table tests that key. -/
theorem keySkips : Obligations.KeySkips := by
  intro x s h
  have hno : ¬ (s.getV x).toNat > 0xF := by omega
  have hskp : pcAfter s (.skp x) =
      s.pc + if s.keys[(s.getV x).toNat] = true then 4 else 2 := by
    rw [pcAfter, keyOfByte_of_lt h]; rfl
  have hsknp : pcAfter s (.sknp x) =
      s.pc + if s.keys[(s.getV x).toNat] = true then 2 else 4 := by
    rw [pcAfter, keyOfByte_of_lt h]; rfl
  rw [← hskp, ← hsknp]
  exact ⟨completes_of_exec (exec_skp hno) trivial, completes_of_exec (exec_sknp hno) trivial⟩

/-! ## The key wait (R104) -/

/-- Settles O55: Fx0A enters the wait against the keys of the moment. -/
theorem keyWaitBegins : Obligations.KeyWaitBegins := by
  intro x s
  exact completes_of_exec rfl rfl

/-- The keys that qualify at a poll are the candidates. -/
theorem keyQualifies_iff_candidate (s : State) (b : Keys) (k : Key) :
    keyQualifies s.params.keyWait s.keys b k = true ↔ KeyCandidate s b k := by
  unfold keyQualifies KeyCandidate
  cases s.params.keyWait <;> simp

theorem keyQualifies_false_iff (s : State) (b : Keys) (k : Key) :
    keyQualifies s.params.keyWait s.keys b k = false ↔ ¬ KeyCandidate s b k := by
  rw [← keyQualifies_iff_candidate, Bool.not_eq_true]

/-- The key a poll takes is the lowest candidate. -/
theorem lowestKey_eq_some_of_lowest {s : State} {b : Keys} {k : Key} (hk : KeyCandidate s b k)
    (hlow : ∀ j, j < k → ¬ KeyCandidate s b j) :
    lowestKey s.params.keyWait s.keys b = some k := by
  cases h : lowestKey s.params.keyWait s.keys b with
  | none => exact absurd hk ((keyQualifies_false_iff s b k).mp (lowestKey_eq_none.mp h k))
  | some j =>
    obtain ⟨hj, hlowj⟩ := lowestKey_eq_some h
    rw [keyQualifies_iff_candidate] at hj
    have hkj : ¬ k < j := fun hlt => (keyQualifies_false_iff s b k).mp (hlowj k hlt) hk
    have hjk : ¬ j < k := fun hlt => hlow j hlt hj
    rw [le_antisymm (not_lt.mp hkj) (not_lt.mp hjk)]

theorem toNat_byteOfKey (k : Key) : (byteOfKey k).toNat = k.val := by
  have hk := k.isLt
  rw [byteOfKey, BitVec.toNat_ofNat]
  omega

/-- Settles O56: the two outcomes of a poll. -/
theorem keyWaitPolls : Obligations.KeyWaitPolls := by
  intro s x b hm
  rw [step_awaiting hm, State.pollKeyWait]
  refine ⟨fun hnone => ?waits, fun k hk hlow => ?takes⟩
  case waits =>
    rw [lowestKey_eq_none.mpr fun k => (keyQualifies_false_iff s b k).mpr (hnone k)]
    exact ⟨_, rfl, rfl, rfl, rfl, s.frame_mode _⟩
  case takes =>
    rw [lowestKey_eq_some_of_lowest hk hlow]
    refine ⟨_, rfl, rfl, rfl, ?_, rfl, (s.frame_setV_advance x (byteOfKey k)).withMode .running⟩
    rw [← toNat_byteOfKey k]
    exact congrArg BitVec.toNat (s.getV_setV_self x (byteOfKey k))

/-! ## The timers (R103, R105, R106) -/

/-- The tone sounds exactly while ST is above 0 (R21). -/
theorem State.toneActive_iff (s : State) : s.toneActive = true ↔ s.st.toNat > 0 := by
  rw [State.toneActive, decide_eq_true_iff, ne_eq, ← BitVec.toNat_inj]
  exact Nat.pos_iff_ne_zero.symm

/-- Settles O57: one write each, and the tone by the ST written. -/
theorem timerCopies : Obligations.TimerCopies := by
  intro x s
  exact ⟨completes_of_exec rfl (s.getV_setV_self x s.dt), completes_of_exec rfl rfl,
    completes_of_exec rfl ⟨rfl, (s.completed (.ldStVx x)).toneActive_iff⟩⟩

end Sys2Proof.Machine
end
